-- ==== Sys2Proof/Word.lean ====
section
/-! DEFINITION. The widths of BWU64: the 64-bit word, the 8-bit element and the 88-bit command. -/

namespace Sys2Proof

/-- A word: "an exact 64-bit unsigned integer" (spec/00_scope.md R10, R17; bit 0 is the least significant, R11). -/
abbrev Word := BitVec 64

/-- A byte of a word and an element of the buffer: 8 bits (spec/00_scope.md R17, spec/10_state.md R24). -/
abbrev Byte := BitVec 8

/-- A command word `CMD[87:0]` (spec/30_encoding.md R60). -/
abbrev Command := BitVec 88

end Sys2Proof
end

