-- ==== Sys2Proof/Config.lean ====
section
/-! DEFINITION. The parameters of an instance (spec/00_scope.md R10) and the model's one free value. -/

namespace Sys2Proof

/-- The parameters that are fixed for the life of an instance (spec/00_scope.md R10, spec/10_state.md R28). -/
structure Config where
  /-- BUFLEN, the number of elements of BUF. -/
  buflen  : Nat
  /-- CH_ZERO, the code of a digit 0. -/
  chZero  : Byte
  /-- CH_ONE, the code of a digit 1. -/
  chOne   : Byte
  /-- CH_SPACE, the code that separates two groups. -/
  chSpace : Byte
  /-- CH_TERM, the terminating marker. -/
  chTerm  : Byte
  deriving DecidableEq, Repr

/-- The default of every parameter (spec/00_scope.md R10, spec/44_bitstring_buffer.md R163). -/
def Config.default : Config :=
  { buflen := 72, chZero := 0x30#8, chOne := 0x31#8, chSpace := 0x20#8, chTerm := 0x00#8 }

/-- What R10 asks of an instance: 72 <= BUFLEN <= 127 and four pairwise distinct codes
(spec/00_scope.md R10, spec/70_reset_and_hazards.md R213 item (a)). -/
abbrev Config.legal (c : Config) : Prop :=
  72 ≤ c.buflen ∧ c.buflen ≤ 127 ∧
  c.chZero ≠ c.chOne ∧ c.chZero ≠ c.chSpace ∧ c.chZero ≠ c.chTerm ∧
  c.chOne ≠ c.chSpace ∧ c.chOne ≠ c.chTerm ∧ c.chSpace ≠ c.chTerm

/-- DESIGN CHOICE (log 4), safe: the value that the n-th host read of an element with no defined value returns.
"A host read of such an element returns an unspecified 8-bit value" (spec/10_state.md R27), "a draw per read"
(spec/93_implementation_defined.md U5): nothing can be proved of it. -/
opaque Config.unwrittenByte : Nat → Byte

end Sys2Proof
end

