-- ==== Sys2Proof/Machine/Primitives.lean ====
section
/-! DEFINITION. The shift-and-mask primitives that the ten operations are made of (spec/40_datapath_primitives.md). -/

namespace Sys2Proof.Machine

/-- `AND(a, b)` (spec/40_datapath_primitives.md R90). -/
def wordAnd (a b : Word) : Word := a &&& b

/-- `OR(a, b)` (R91). -/
def wordOr (a b : Word) : Word := a ||| b

/-- `NOT(a)` (R92). -/
def wordNot (a : Word) : Word := ~~~a

/-- `SHL(v, n)`, n in 0..63 by its type (R93). -/
def shl (v : Word) (n : Fin 64) : Word := v <<< n.val

/-- `SHR(v, n)`, logical, n in 0..63 by its type (R94). -/
def shr (v : Word) (n : Fin 64) : Word := v >>> n.val

/-- A bit range: "an inclusive span [low, high] of bit positions" with 0 <= low <= high <= 63 (spec/00_scope.md R13, R17). -/
structure BitRange where
  low  : Fin 64
  high : Fin 64
  low_le_high : low ≤ high
  deriving DecidableEq, Repr

/-- The range of the one position `n`. -/
abbrev BitRange.single (n : Fin 64) : BitRange := { low := n, high := n, low_le_high := Nat.le_refl _ }

/-- `high - low + 1`, in 1..64 (spec/00_scope.md R13). -/
def BitRange.width (r : BitRange) : Nat := r.high.val - r.low.val + 1

/-- `MASK(low, high) = 2^(high+1) - 2^low`, computed in the naturals (R95). -/
def mask (r : BitRange) : Word := BitVec.ofNat 64 (2 ^ (r.high.val + 1) - 2 ^ r.low.val)

/-- `ONES(n) = 2^n - 1`, computed in the naturals; used for n in 1..64 only (R96). -/
def ones (n : Nat) : Word := BitVec.ofNat 64 (2 ^ n - 1)

end Sys2Proof.Machine
end

