-- ==== Sys2Proof/Machine/Operands.lean ====
section
/-! DEFINITION. The domain of each operand: a precondition holds where the operand is `some`
(spec/60_exceptions.md R183). A bad operand is never clamped, swapped, wrapped or reduced (R186). -/

namespace Sys2Proof.Machine

/-- `RangeOk(low, high)`: 0 <= low <= high <= 63, on integers (spec/41_bitfield.md R122). -/
def bitRange? (low high : Int) : Option BitRange :=
  if h : 0 ≤ low ∧ low ≤ high ∧ high ≤ 63 then
    some { low := ⟨low.toNat, by omega⟩, high := ⟨high.toNat, by omega⟩,
           low_le_high := by simp only [Fin.mk_le_mk]; omega }
  else none

/-- A bit position, 0..63 (spec/41_bitfield.md R119). -/
def bitPos? (bitNum : Int) : Option (Fin 64) :=
  if h : 0 ≤ bitNum ∧ bitNum ≤ 63 then some ⟨bitNum.toNat, by omega⟩ else none

/-- A bit value, 0 or 1 and nothing else (spec/41_bitfield.md R119, R120). -/
def bitVal? (bitVal : Int) : Option Bool :=
  if bitVal = 0 then some false else if bitVal = 1 then some true else none

/-- The two operands of assignBit. Both tests raise the same fault, so their order cannot be observed
(spec/41_bitfield.md R119). -/
def bitAssignment? (bitNum bitVal : Int) : Option (Fin 64 × Bool) :=
  match bitPos? bitNum, bitVal? bitVal with
  | some n, some v => some (n, v)
  | _, _ => none

/-- A byte index, 0..7 (spec/42_byte.md R130, R133). -/
def byteIndex? (byteIndex : Int) : Option (Fin 8) :=
  if h : 0 ≤ byteIndex ∧ byteIndex ≤ 7 then some ⟨byteIndex.toNat, by omega⟩ else none

/-- A buffer size, 0..BUFLEN (spec/44_bitstring_buffer.md R166, R169). -/
def bufSize? (cfg : Config) (size : Int) : Option Nat :=
  if 0 ≤ size ∧ size ≤ (cfg.buflen : Int) then some size.toNat else none

/-- `8 * byteIndex`, the shift amount of a byte, 0..56 (spec/40_datapath_primitives.md R98). -/
abbrev byteShift (k : Fin 8) : Fin 64 := ⟨8 * k.val, by omega⟩

end Sys2Proof.Machine
end

