-- ==== Sys2Proof/Syntax.lean ====
section
/-! DEFINITION. The ten operations, one constructor for each row of spec/opcode_table.json. -/

namespace Sys2Proof

/-- The decoded level of spec/30_encoding.md R72 and R75: the small operands are integers, `byteVal` and `b0..b7`
are bytes by their type (spec/42_byte.md R134, R140), `word` is a word. -/
inductive Instr where
  /-- OP 0x01, spec/41_bitfield.md R110. -/
  | extractBits (low high : Int) (word : Word)
  /-- OP 0x02, spec/41_bitfield.md R113. -/
  | setBitRange (low high : Int) (word : Word)
  /-- OP 0x03, spec/41_bitfield.md R116. -/
  | clearBitRange (low high : Int) (word : Word)
  /-- OP 0x04, spec/41_bitfield.md R119. -/
  | assignBit (bitNum bitVal : Int) (word : Word)
  /-- OP 0x05, spec/42_byte.md R130. -/
  | getByte (byteIndex : Int) (word : Word)
  /-- OP 0x06, spec/42_byte.md R133. -/
  | putByte (byteIndex : Int) (byteVal : Byte) (word : Word)
  /-- OP 0x07, spec/42_byte.md R137. -/
  | buildWord (b0 b1 b2 b3 b4 b5 b6 b7 : Byte)
  /-- OP 0x08, spec/43_sign_test.md R150. -/
  | isNegative (word : Word)
  /-- OP 0x09, spec/44_bitstring_buffer.md R160. -/
  | renderBits (word : Word)
  /-- OP 0x0A, spec/44_bitstring_buffer.md R166. -/
  | clearBuffer (size : Int)
  deriving DecidableEq, Repr

end Sys2Proof
end

