-- ==== Sys2Proof/WellFormed.lean ====
section
/-! DEFINITION. Which terms of `Instr` a command word can carry. -/

namespace Sys2Proof

/-- The range of a small operand: an 8-bit field read as two's complement (spec/30_encoding.md R62, R75; log 15). -/
def smallOk (x : Int) : Bool := decide (-128 ≤ x) && decide (x ≤ 127)

/-- The well-formed instructions: every small operand is in -128..127 (spec/30_encoding.md R75). The bytes and the
words are in range by their types. -/
def Instr.wf : Instr → Bool
  | .extractBits low high _      => smallOk low && smallOk high
  | .setBitRange low high _      => smallOk low && smallOk high
  | .clearBitRange low high _    => smallOk low && smallOk high
  | .assignBit bitNum bitVal _   => smallOk bitNum && smallOk bitVal
  | .getByte byteIndex _         => smallOk byteIndex
  | .putByte byteIndex _ _       => smallOk byteIndex
  | .buildWord _ _ _ _ _ _ _ _  => true
  | .isNegative _                => true
  | .renderBits _                => true
  | .clearBuffer size            => smallOk size

end Sys2Proof
end

