-- ==== Sys2Proof/Decode.lean ====
section
/-! DEFINITION. The command word: its fields, the decoder and the encoder (spec/30_encoding.md). -/

namespace Sys2Proof

/-- `CMD.OP = CMD[87:80]` (spec/30_encoding.md R61). -/
def opField (c : Command) : Byte := c.extractLsb' 80 8

/-- `CMD.A = CMD[79:72]` (spec/30_encoding.md R61). -/
def aField (c : Command) : Byte := c.extractLsb' 72 8

/-- `CMD.B = CMD[71:64]` (spec/30_encoding.md R61). -/
def bField (c : Command) : Byte := c.extractLsb' 64 8

/-- `CMD.W = CMD[63:0]` (spec/30_encoding.md R61). -/
def wField (c : Command) : Word := c.extractLsb' 0 64

/-- The command word made of the four fields (spec/30_encoding.md R61). -/
def mkCommand (op a b : Byte) (w : Word) : Command :=
  (op ++ a ++ b ++ w : BitVec (8 + 8 + 8 + 64))

/-- `sext(A)`: the field as an 8-bit two's-complement integer, -128..127 (spec/30_encoding.md R62). -/
def sext (f : Byte) : Int := f.toInt

/-- Byte `k` of a word as the decoder cuts it, `W[8k+7 : 8k]` (spec/00_scope.md R12, spec/30_encoding.md R73). -/
def byteField (w : Word) (k : Nat) : Byte := w.extractLsb' (8 * k) 8

/-- Why a command word is no instruction. -/
inductive DecodeError where
  /-- OP is 0x00 or 0x0B..0xFF (spec/30_encoding.md R65). -/
  | illegalCommand (op : Byte)
  deriving DecidableEq, Repr

/-- The decoder, total on the 2^88 command words (spec/30_encoding.md R72). It checks no precondition, and a
reserved OP is rejected by name, whatever the other fields hold (R65). An ignored field may hold anything (R69; log 16). -/
def decode (c : Command) : Except DecodeError Instr :=
  match opField c with
  | 0x01#8 => .ok (.extractBits (sext (aField c)) (sext (bField c)) (wField c))
  | 0x02#8 => .ok (.setBitRange (sext (aField c)) (sext (bField c)) (wField c))
  | 0x03#8 => .ok (.clearBitRange (sext (aField c)) (sext (bField c)) (wField c))
  | 0x04#8 => .ok (.assignBit (sext (aField c)) (sext (bField c)) (wField c))
  | 0x05#8 => .ok (.getByte (sext (aField c)) (wField c))
  | 0x06#8 => .ok (.putByte (sext (aField c)) (bField c) (wField c))
  | 0x07#8 => .ok (.buildWord (byteField (wField c) 0) (byteField (wField c) 1) (byteField (wField c) 2)
                (byteField (wField c) 3) (byteField (wField c) 4) (byteField (wField c) 5)
                (byteField (wField c) 6) (byteField (wField c) 7))
  | 0x08#8 => .ok (.isNegative (wField c))
  | 0x09#8 => .ok (.renderBits (wField c))
  | 0x0A#8 => .ok (.clearBuffer (sext (aField c)))
  | op     => .error (.illegalCommand op)

/-! ## The encoder -/

/-- A small operand "is encoded as its low 8 bits" (spec/30_encoding.md R70). -/
def smallField (x : Int) : Byte := BitVec.ofInt 8 x

/-- `{b7, b6, b5, b4, b3, b2, b1, b0}`, the W field of buildWord (spec/30_encoding.md R73). -/
def wordOfBytes (b0 b1 b2 b3 b4 b5 b6 b7 : Byte) : Word :=
  (b7 ++ b6 ++ b5 ++ b4 ++ b3 ++ b2 ++ b1 ++ b0 : BitVec (8 + 8 + 8 + 8 + 8 + 8 + 8 + 8))

/-- The operation code of each instruction (spec/30_encoding.md R64). -/
def Instr.op : Instr → Byte
  | .extractBits _ _ _          => 0x01#8
  | .setBitRange _ _ _          => 0x02#8
  | .clearBitRange _ _ _        => 0x03#8
  | .assignBit _ _ _            => 0x04#8
  | .getByte _ _                => 0x05#8
  | .putByte _ _ _              => 0x06#8
  | .buildWord _ _ _ _ _ _ _ _  => 0x07#8
  | .isNegative _               => 0x08#8
  | .renderBits _               => 0x09#8
  | .clearBuffer _              => 0x0A#8

/-- Field A of the canonical encoding: 0 where the operation ignores it (spec/30_encoding.md R64, R69). -/
def Instr.a : Instr → Byte
  | .extractBits low _ _        => smallField low
  | .setBitRange low _ _        => smallField low
  | .clearBitRange low _ _      => smallField low
  | .assignBit bitNum _ _       => smallField bitNum
  | .getByte byteIndex _        => smallField byteIndex
  | .putByte byteIndex _ _      => smallField byteIndex
  | .buildWord _ _ _ _ _ _ _ _  => 0#8
  | .isNegative _               => 0#8
  | .renderBits _               => 0#8
  | .clearBuffer size           => smallField size

/-- Field B of the canonical encoding: 0 where the operation ignores it (spec/30_encoding.md R64, R69). -/
def Instr.b : Instr → Byte
  | .extractBits _ high _       => smallField high
  | .setBitRange _ high _       => smallField high
  | .clearBitRange _ high _     => smallField high
  | .assignBit _ bitVal _       => smallField bitVal
  | .getByte _ _                => 0#8
  | .putByte _ byteVal _        => byteVal
  | .buildWord _ _ _ _ _ _ _ _  => 0#8
  | .isNegative _               => 0#8
  | .renderBits _               => 0#8
  | .clearBuffer _              => 0#8

/-- Field W of the canonical encoding: 0 where the operation ignores it (spec/30_encoding.md R64, R69, R73). -/
def Instr.w : Instr → Word
  | .extractBits _ _ word       => word
  | .setBitRange _ _ word       => word
  | .clearBitRange _ _ word     => word
  | .assignBit _ _ word         => word
  | .getByte _ word             => word
  | .putByte _ _ word           => word
  | .buildWord b0 b1 b2 b3 b4 b5 b6 b7 => wordOfBytes b0 b1 b2 b3 b4 b5 b6 b7
  | .isNegative word            => word
  | .renderBits word            => word
  | .clearBuffer _              => 0#64

/-- The canonical encoding, "the one an assembler emits" (spec/30_encoding.md R69). -/
def encode (i : Instr) : Command := mkCommand i.op i.a i.b i.w

/-! ## The opcode table's numbering -/

/-- The command word whose low `nbits` bits are those of `w` and whose other bits are 0. The table numbers the bits of
the one 88-bit word from its least significant bit, as the spec does (spec/30_encoding.md R60; log 2). -/
def tableCommand (nbits w : Nat) : Command := BitVec.ofNat 88 (w % 2 ^ nbits)

/-- The instruction the decoder reads from a word of the opcode table. There is no form longer than 88 bits
(spec/30_encoding.md R60). -/
def decodeTableWord (nbits w : Nat) : Option Instr :=
  if nbits ≤ 88 then (decode (tableCommand nbits w)).toOption else none

end Sys2Proof
end

