-- ==== Sys2Proof/Machine/State.lean ====
section
/-! DEFINITION. The modelled system: the buffer, the instance's parameters, the host's moves and what they returned. -/

namespace Sys2Proof.Machine

/-- The fault codes of a response (spec/60_exceptions.md R180). They are answers of the unit, not stops of the machine. -/
inductive FaultCode where
  /-- A precondition of a real operation does not hold (R183). -/
  | invalidArgument
  /-- OP names no operation (R182). -/
  | illegalCommand
  deriving DecidableEq, Repr

/-- A result, by its result type (spec/30_encoding.md R64, R68). -/
inductive Value where
  | word (w : Word)
  | byte (b : Byte)
  | bool (b : Bool)
  | none
  deriving DecidableEq, Repr

/-- A response at the decoded level: `Ok(value)` or `Fault(code)`; a fault has no payload (spec/30_encoding.md R66, R68). -/
inductive Response where
  | ok (v : Value)
  | fault (code : FaultCode)
  deriving DecidableEq, Repr

/-- One move of the host (spec/00_scope.md R8, spec/70_reset_and_hazards.md R210, R224). -/
inductive HostMove where
  /-- Present a command: one whole transaction (spec/00_scope.md R7). -/
  | present (c : Command)
  /-- Read one element of BUF (spec/20_memory.md R45). -/
  | read (i : Nat)
  /-- Write one element of BUF (spec/20_memory.md R45). -/
  | write (i : Nat) (v : Byte)
  /-- Apply the reset; `executing` is the command it interrupts, if any (spec/70_reset_and_hazards.md R210, R211). -/
  | reset (executing : Option Command)
  deriving DecidableEq, Repr

/-- What the host gets back from a move: a response (spec/00_scope.md R7) or the value of an element (spec/20_memory.md R45). -/
inductive Event where
  | response (r : Response)
  | read (i : Nat) (v : Byte)
  deriving DecidableEq, Repr

/-- The content of BUF: the elements that hold a defined value, by rising index. An element that is not listed "holds no
defined value" (spec/10_state.md R27). -/
abbrev Memory := List Host.Cell

/-- The modelled system. The unit holds nothing between transactions (spec/10_state.md R20): `buf` is the host's
(R25), `cfg` is fixed for the life of the instance (R28), `moves` are the inputs still to come (R28, R224), `trace`
is what the moves so far returned, oldest first (R224), and `draws` is the MODEL's own count of the unspecified
values handed out (log 6). -/
structure State where
  cfg   : Config
  buf   : Memory
  moves : List HostMove
  trace : List Event
  draws : Nat
  deriving DecidableEq, Repr

/-- The system after reset (spec/10_state.md R31, R33): every element of BUF unspecified, nothing pending, the
parameters at their defaults (spec/00_scope.md R10); the model's own `trace` and `draws` empty (logs 5 and 6). -/
def State.reset : State :=
  { cfg := Config.default, buf := [], moves := [], trace := [], draws := 0 }

/-- Why the machine stops. -/
inductive Fault where
  /-- Raised by a host read or write of an element index at or above BUFLEN: "no index at or above BUFLEN exists"
  (spec/20_memory.md R40; log 8). Safe: the model stops where the spec gives no such access. -/
  | noSuchElement (i : Nat)
  deriving DecidableEq, Repr

/-- Why an instruction has no meaning. -/
inductive Refusal where
  /-- Raised by an arm of `exec` for an instruction without a meaning; no arm does so. Safe. -/
  | notModelled (mnemonic : String)
  deriving DecidableEq, Repr

/-- The outcome of a step. -/
abbrev Outcome := Host.Outcome State Fault Refusal

end Sys2Proof.Machine
end

