-- ==== Sys2Proof/Machine/Ops.lean ====
section
/-! DEFINITION. The named operations: access to BUF, answering a command, and taking a fault. -/

namespace Sys2Proof.Machine

/-! ## BUF -/

/-- The value of element `i`, or none where nothing has written it since reset (spec/10_state.md R27). -/
def Memory.read : Memory → Nat → Option Byte
  | [], _ => none
  | (j, w) :: rest, i => if j = i then some w else Memory.read rest i

/-- `MemWrite(i, 1, v)` (spec/00_scope.md R15, spec/20_memory.md R45). -/
def Memory.write : Memory → Nat → Byte → Memory
  | [], i, v => [(i, v)]
  | (j, w) :: rest, i, v =>
    if i < j then (i, v) :: (j, w) :: rest
    else if i = j then (i, v) :: rest
    else (j, w) :: Memory.write rest i v

/-- Writes `f i` to every element `i` of `BUF[0..n)`. The spec leaves the order of the writes of one command open and
unobservable (spec/20_memory.md R46; log 13). -/
def Memory.writePrefix (m : Memory) (n : Nat) (f : Nat → Byte) : Memory :=
  (List.range n).foldl (fun m i => Memory.write m i (f i)) m

/-- The canonical form: indices strictly rising, so each element is listed once. -/
def Memory.wf : Memory → Bool
  | [] => true
  | [_] => true
  | (i, _) :: (j, w) :: rest => decide (i < j) && Memory.wf ((j, w) :: rest)

/-- Every listed index exists in a buffer of `n` elements (spec/20_memory.md R40). -/
def Memory.below (m : Memory) (n : Nat) : Bool := m.all fun cell => decide (cell.1 < n)

/-- The system with another content of BUF, and nothing else changed. -/
def State.withBuf (s : State) (m : Memory) : State := { s with buf := m }

/-! ## The end of a transaction -/

/-- The host gets one more event back. -/
def State.emit (s : State) (e : Event) : State := { s with trace := s.trace ++ [e] }

/-- `return Ok(v)` (spec/00_scope.md R15): "end the transaction with STATUS = OK and result `v`". -/
def State.answer (s : State) (v : Value) : State := s.emit (.response (.ok v))

/-- `raise <code>` (spec/00_scope.md R15). The whole of taking a fault is returning the response: no state is saved,
no mode switched, no element written and no control transferred (spec/60_exceptions.md R185, R188). There is no return
from a fault and nothing to clear: the next command runs normally (R189; log 7). -/
def State.raise (s : State) (code : FaultCode) : State := s.emit (.response (.fault code))

/-- The shape of an operation with a precondition: `raise InvalidArgument` unless the operands are in their domain,
which is tested before anything else happens (spec/60_exceptions.md R183, R187). -/
def State.checked {α : Type} (s : State) (operands : Option α) (result : α → State) : Outcome :=
  match operands with
  | none   => .next (s.raise .invalidArgument)
  | some x => .next (result x)

end Sys2Proof.Machine
end

