-- ==== Sys2Proof/Machine/BitField.lean ====
section
/-! DEFINITION. The bit-field operations (spec/41_bitfield.md): they read their operands only, write no element of BUF
and no flag, and raise InvalidArgument where the precondition fails. -/

namespace Sys2Proof.Machine

/-- `AND(SHR(word, low), ONES(high - low + 1))` (spec/41_bitfield.md R110). -/
def extractField (r : BitRange) (word : Word) : Word := wordAnd (shr word r.low) (ones r.width)

/-- `OR(word, MASK(low, high))` (spec/41_bitfield.md R113). -/
def setField (r : BitRange) (word : Word) : Word := wordOr word (mask r)

/-- `AND(word, NOT(MASK(low, high)))` (spec/41_bitfield.md R116). -/
def clearField (r : BitRange) (word : Word) : Word := wordAnd word (wordNot (mask r))

/-- `word` with bit `n` set to `v` (spec/41_bitfield.md R119). -/
def assignField (n : Fin 64) (v : Bool) (word : Word) : Word :=
  if v then wordOr word (mask (.single n)) else wordAnd word (wordNot (mask (.single n)))

/-- `extractBits(low, high, word) -> Word` (spec/41_bitfield.md R110). -/
def execExtractBits (low high : Int) (word : Word) (s : State) : Outcome :=
  s.checked (bitRange? low high) fun r => s.answer (.word (extractField r word))

/-- `setBitRange(low, high, word) -> Word` (spec/41_bitfield.md R113). -/
def execSetBitRange (low high : Int) (word : Word) (s : State) : Outcome :=
  s.checked (bitRange? low high) fun r => s.answer (.word (setField r word))

/-- `clearBitRange(low, high, word) -> Word` (spec/41_bitfield.md R116). -/
def execClearBitRange (low high : Int) (word : Word) (s : State) : Outcome :=
  s.checked (bitRange? low high) fun r => s.answer (.word (clearField r word))

/-- `assignBit(bitNum, bitVal, word) -> Word` (spec/41_bitfield.md R119, R120). -/
def execAssignBit (bitNum bitVal : Int) (word : Word) (s : State) : Outcome :=
  s.checked (bitAssignment? bitNum bitVal) fun p => s.answer (.word (assignField p.1 p.2 word))

end Sys2Proof.Machine
end

