-- ==== Sys2Proof/Machine/Buffer.lean ====
section
/-! DEFINITION. The two operations that write BUF (spec/44_bitstring_buffer.md). They never read it. -/

namespace Sys2Proof.Machine

/-- The bit position that index `i` of the bit-string shows, where it shows a digit: `63 - (8 * g + p)` with
`g = i div 9` and `p = i mod 9` (spec/44_bitstring_buffer.md R160). -/
def digitBit (i : Nat) : Nat := 63 - (8 * (i / 9) + i % 9)

/-- Element `i` of the bit-string of `word`, `i` in 0..71 (spec/44_bitstring_buffer.md R160). -/
def bitStringElem (cfg : Config) (word : Word) (i : Nat) : Byte :=
  if i = 71 then cfg.chTerm
  else if i % 9 = 8 then cfg.chSpace
  else if word.getLsbD (digitBit i) then cfg.chOne
  else cfg.chZero

/-- `renderBits(word)`: BUF[0..71] is written, R = 0, it never faults (spec/44_bitstring_buffer.md R160, R171). -/
def execRenderBits (word : Word) (s : State) : Outcome :=
  .next ((s.withBuf (s.buf.writePrefix 72 (bitStringElem s.cfg word))).answer .none)

/-- `clearBuffer(size)`: BUF[0..size-1] becomes 0x00, whatever CH_TERM is, and R = 0; a size outside 0..BUFLEN raises
InvalidArgument and writes nothing (spec/44_bitstring_buffer.md R166, R167). -/
def execClearBuffer (size : Int) (s : State) : Outcome :=
  s.checked (bufSize? s.cfg size) fun n =>
    (s.withBuf (s.buf.writePrefix n (fun _ => 0x00#8))).answer .none

end Sys2Proof.Machine
end

