-- ==== Sys2Proof/Machine/Bytes.lean ====
section
/-! DEFINITION. The byte operations (spec/42_byte.md): they read their operands only and write no element of BUF and no
flag. getByte and putByte raise InvalidArgument where the index is outside 0..7; buildWord never faults. -/

namespace Sys2Proof.Machine

/-- `AND(SHR(word, 8 * byteIndex), 0xFF)`, as the Byte it is (spec/42_byte.md R130). -/
def byteOf (k : Fin 8) (word : Word) : Byte :=
  (wordAnd (shr word (byteShift k)) 0x00000000000000FF#64).setWidth 8

/-- Clear the target byte, then OR in the new value (spec/42_byte.md R133, R135). -/
def replaceByte (k : Fin 8) (byteVal : Byte) (word : Word) : Word :=
  wordOr (wordAnd word (wordNot (shl 0x00000000000000FF#64 (byteShift k))))
    (shl (byteVal.setWidth 64) (byteShift k))

/-- One round of buildWord's loop: `r <- OR(r, SHL(zext_64(b_k), 8 * k))` (spec/42_byte.md R137). -/
def orByte (r : Word) (k : Fin 8) (b : Byte) : Word := wordOr r (shl (b.setWidth 64) (byteShift k))

/-- All eight bytes are combined the same way, by OR into an accumulator that starts at zero (spec/42_byte.md R137, R138). -/
def combineBytes (b0 b1 b2 b3 b4 b5 b6 b7 : Byte) : Word :=
  orByte (orByte (orByte (orByte (orByte (orByte (orByte (orByte 0#64 0 b0) 1 b1) 2 b2) 3 b3) 4 b4) 5 b5) 6 b6) 7 b7

/-- `getByte(byteIndex, word) -> Byte` (spec/42_byte.md R130). -/
def execGetByte (byteIndex : Int) (word : Word) (s : State) : Outcome :=
  s.checked (byteIndex? byteIndex) fun k => s.answer (.byte (byteOf k word))

/-- `putByte(byteIndex, byteVal, word) -> Word` (spec/42_byte.md R133). -/
def execPutByte (byteIndex : Int) (byteVal : Byte) (word : Word) (s : State) : Outcome :=
  s.checked (byteIndex? byteIndex) fun k => s.answer (.word (replaceByte k byteVal word))

/-- `buildWord(b0, ..., b7) -> Word` (spec/42_byte.md R137). -/
def execBuildWord (b0 b1 b2 b3 b4 b5 b6 b7 : Byte) (s : State) : Outcome :=
  .next (s.answer (.word (combineBytes b0 b1 b2 b3 b4 b5 b6 b7)))

end Sys2Proof.Machine
end

