-- ==== Sys2Proof/Machine/SignTest.lean ====
section
/-! DEFINITION. The sign test (spec/43_sign_test.md). -/

namespace Sys2Proof.Machine

/-- `isNegative(word) -> Bool`: bit 63; it never faults and is stored nowhere (spec/43_sign_test.md R150). -/
def execIsNegative (word : Word) (s : State) : Outcome :=
  .next (s.answer (.bool (word.getLsbD 63)))

end Sys2Proof.Machine
end

