-- ==== Sys2Proof/Machine/Dispatch.lean ====
section
/-! DEFINITION. One arm per constructor of `Instr`, each a direct call of its meaning. -/

namespace Sys2Proof.Machine

/-- The unit executes a decoded command to its response (spec/00_scope.md R9). -/
def exec (i : Instr) (s : State) : Host.Outcome State Fault Refusal :=
  match i with
  | .extractBits low high word => Sys2Proof.Machine.execExtractBits low high word s
  | .setBitRange low high word => Sys2Proof.Machine.execSetBitRange low high word s
  | .clearBitRange low high word => Sys2Proof.Machine.execClearBitRange low high word s
  | .assignBit bitNum bitVal word => Sys2Proof.Machine.execAssignBit bitNum bitVal word s
  | .getByte byteIndex word => Sys2Proof.Machine.execGetByte byteIndex word s
  | .putByte byteIndex byteVal word => Sys2Proof.Machine.execPutByte byteIndex byteVal word s
  | .buildWord b0 b1 b2 b3 b4 b5 b6 b7 => Sys2Proof.Machine.execBuildWord b0 b1 b2 b3 b4 b5 b6 b7 s
  | .isNegative word => Sys2Proof.Machine.execIsNegative word s
  | .renderBits word => Sys2Proof.Machine.execRenderBits word s
  | .clearBuffer size => Sys2Proof.Machine.execClearBuffer size s

end Sys2Proof.Machine
end

