-- ==== Sys2Proof/Machine/Transaction.lean ====
section
/-! DEFINITION. The host's moves: a transaction, an access to one element, the reset. -/

namespace Sys2Proof.Machine

/-- One transaction: OP is decoded first; a reserved OP is answered with IllegalCommand and no operand is looked at;
otherwise the operation tests its precondition and runs (spec/60_exceptions.md R182, R187). -/
def transact (c : Command) (s : State) : Outcome :=
  match decode c with
  | .ok i    => exec i s
  | .error _ => .next (s.raise .illegalCommand)

/-- `MemRead(i, 1)` by the host: the latest value written, and nothing changes (spec/20_memory.md R45, R49, R54). An
element that nothing has written gives an unspecified value, a fresh draw (spec/10_state.md R27; log 4). -/
def hostRead (i : Nat) (s : State) : Outcome :=
  if i < s.cfg.buflen then
    match s.buf.read i with
    | some v => .next (s.emit (.read i v))
    | none   => .next ({ s with draws := s.draws + 1 }.emit (.read i (Config.unwrittenByte s.draws)))
  else .fault (.noSuchElement i)

/-- `MemWrite(i, 1, v)` by the host (spec/20_memory.md R45, R49). -/
def hostWrite (i : Nat) (v : Byte) (s : State) : Outcome :=
  if i < s.cfg.buflen then .next (s.withBuf (s.buf.write i v))
  else .fault (.noSuchElement i)

/-- The reset event: every element of BUF is unspecified afterwards, written before or not; a command that was executing
returns no response; the instance keeps its parameters (spec/70_reset_and_hazards.md R210, R211). What earlier moves
returned stays in the host's record (log 11). -/
def takeReset (_executing : Option Command) (s : State) : Outcome :=
  .next (s.withBuf [])

/-- What one host move does. -/
def perform (m : HostMove) (s : State) : Outcome :=
  match m with
  | .present c       => transact c s
  | .read i          => hostRead i s
  | .write i v       => hostWrite i v s
  | .reset executing => takeReset executing s

end Sys2Proof.Machine
end

