-- ==== Sys2Proof/Machine/Step.lean ====
section
/-! DEFINITION. One step: the host's next move, whole (spec/20_memory.md R48, spec/70_reset_and_hazards.md R224). -/

namespace Sys2Proof.Machine

/-- One step of the system. With no move left the unit is idle: it never halts (spec/70_reset_and_hazards.md R224; log 10). -/
def step (s : State) : Host.Outcome State Fault Refusal :=
  match s.moves with
  | []        => .next s
  | m :: rest => perform m { s with moves := rest }

/-- The host presents that command next. Commands are never fetched from BUF (spec/20_memory.md R52; log 2). -/
def State.withFetchWord (s : State) (nbits w : Nat) : State :=
  { s with moves := .present (tableCommand nbits w) :: s.moves }

end Sys2Proof.Machine
end

