-- ==== Sys2Proof/Machine/Assembler.lean ====
section
/-! DEFINITION. The assembler's text form, one command a line (spec/30_encoding.md R70, R71). -/

namespace Sys2Proof.Machine

/-- Why a line of text is no command. Every one is safe: the line is refused. -/
inductive AsmError where
  /-- The line is not of the form `name(operand, ..., operand)`, comment aside (an empty line among them). -/
  | notACall
  /-- The name is none of the ten mnemonics (R70, R71). -/
  | unknownMnemonic (name : String)
  /-- An operand is no numeral of R70. -/
  | badNumeral
  /-- The number of operands is not the operation's, or one is outside R70's range. -/
  | badOperands
  deriving DecidableEq, Repr

/-- A numeral: a decimal integer, or a hexadecimal literal with its count of digits (R70). -/
inductive Numeral where
  | dec (v : Int)
  | hex (digits v : Nat)
  deriving DecidableEq, Repr

/-- The value of a digit, in either letter case. -/
def digitVal (c : Char) : Option Nat :=
  if '0' ≤ c ∧ c ≤ '9' then some (c.toNat - '0'.toNat)
  else if 'a' ≤ c ∧ c ≤ 'f' then some (c.toNat - 'a'.toNat + 10)
  else if 'A' ≤ c ∧ c ≤ 'F' then some (c.toNat - 'A'.toNat + 10)
  else none

/-- The number that a non-empty list of digits writes in a base, most significant digit first. -/
def digitsVal (base : Nat) (cs : List Char) : Option Nat :=
  if cs.isEmpty then none
  else cs.foldl (fun acc c =>
    match acc, digitVal c with
    | some v, some d => if d < base then some (base * v + d) else none
    | _, _ => none) (some 0)

/-- A numeral of R70. -/
def numeral? (cs : List Char) : Option Numeral :=
  match cs with
  | '-' :: ds        => (digitsVal 10 ds).map fun v => .dec (-(v : Int))
  | '0' :: 'x' :: ds => (digitsVal 16 ds).map fun v => .hex ds.length v
  | ds               => (digitsVal 10 ds).map fun v => .dec v

/-- "A small operand is a decimal integer in -128..255 or a hexadecimal literal 0x00..0xFF" (R70). -/
def smallOperand? : Numeral → Option Int
  | .dec v   => if -128 ≤ v ∧ v ≤ 255 then some v else none
  | .hex n v => if n ≤ 2 then some v else none

/-- "A word is a hexadecimal literal of up to 16 digits or a decimal integer in 0..2^64-1" (R70). -/
def wordOperand? : Numeral → Option Word
  | .dec v   => if 0 ≤ v ∧ v < 2 ^ 64 then some (BitVec.ofInt 64 v) else none
  | .hex n v => if n ≤ 16 then some (BitVec.ofNat 64 v) else none

/-- A byte operand: a small operand, "encoded as its low 8 bits" (R70). -/
def byteOperand? (n : Numeral) : Option Byte := (smallOperand? n).map smallField

/-- The call of a mnemonic with its operands in BM's order (R70); none where the operands do not fit. -/
def call? (name : String) (ops : List Numeral) : Option (Option Instr) :=
  match name with
  | "extractBits" => some <| match ops with
    | [l, h, w] => do return .extractBits (← smallOperand? l) (← smallOperand? h) (← wordOperand? w)
    | _ => none
  | "setBitRange" => some <| match ops with
    | [l, h, w] => do return .setBitRange (← smallOperand? l) (← smallOperand? h) (← wordOperand? w)
    | _ => none
  | "clearBitRange" => some <| match ops with
    | [l, h, w] => do return .clearBitRange (← smallOperand? l) (← smallOperand? h) (← wordOperand? w)
    | _ => none
  | "assignBit" => some <| match ops with
    | [n, v, w] => do return .assignBit (← smallOperand? n) (← smallOperand? v) (← wordOperand? w)
    | _ => none
  | "getByte" => some <| match ops with
    | [k, w] => do return .getByte (← smallOperand? k) (← wordOperand? w)
    | _ => none
  | "putByte" => some <| match ops with
    | [k, v, w] => do return .putByte (← smallOperand? k) (← byteOperand? v) (← wordOperand? w)
    | _ => none
  | "buildWord" => some <| match ops with
    | [b0, b1, b2, b3, b4, b5, b6, b7] => do
      return .buildWord (← byteOperand? b0) (← byteOperand? b1) (← byteOperand? b2) (← byteOperand? b3)
        (← byteOperand? b4) (← byteOperand? b5) (← byteOperand? b6) (← byteOperand? b7)
    | _ => none
  | "isNegative" => some <| match ops with
    | [w] => do return .isNegative (← wordOperand? w)
    | _ => none
  | "renderBits" => some <| match ops with
    | [w] => do return .renderBits (← wordOperand? w)
    | _ => none
  | "clearBuffer" => some <| match ops with
    | [n] => do return .clearBuffer (← smallOperand? n)
    | _ => none
  | _ => none

/-- Blanks may stand around a name and a numeral (log 17). -/
def isBlank (c : Char) : Bool := c = ' ' || c = '\t'

/-- The text without its leading and trailing blanks. -/
def trim (cs : List Char) : List Char := ((cs.dropWhile isBlank).reverse.dropWhile isBlank).reverse

/-- The pieces of a text between its commas. -/
def splitCommas (cs : List Char) : List (List Char) :=
  cs.foldr (fun c acc =>
    match acc with
    | piece :: rest => if c = ',' then [] :: piece :: rest else (c :: piece) :: rest
    | [] => []) [[]]

/-- One line of assembly: "Text after `;` on a line is a comment", and what stands before it is one call (R70). -/
def assembleLine (line : List Char) : Except AsmError Command :=
  let text := trim (line.takeWhile (· != ';'))
  let name := String.ofList (trim (text.takeWhile (· != '(')))
  match text.dropWhile (· != '(') with
  | '(' :: body =>
    if body.getLast? = some ')' then
      match (splitCommas body.dropLast).mapM fun piece => numeral? (trim piece) with
      | none => .error .badNumeral
      | some ops =>
        match call? name ops with
        | none          => .error (.unknownMnemonic name)
        | some none     => .error .badOperands
        | some (some i) => .ok (encode i)
    else .error .notACall
  | _ => .error .notACall

/-- A text of several lines, each exactly one command (R70, R71). -/
def assemble (lines : List (List Char)) : Except AsmError (List Command) := lines.mapM assembleLine

end Sys2Proof.Machine
end

