-- ==== Sys2Proof/Machine/Flags.lean ====
section
/-! DEFINITION. The unit has no flags, condition codes or status registers (spec/10_state.md R23). What a transaction
reports is its response; this file gives the response's two fields as the port carries them (spec/30_encoding.md R66 to R68). -/

namespace Sys2Proof.Machine

/-- The STATUS code of a fault (spec/30_encoding.md R67, spec/60_exceptions.md R180). -/
def FaultCode.status : FaultCode → BitVec 2
  | .invalidArgument => 1#2
  | .illegalCommand  => 2#2

/-- The STATUS field. 3 is never produced (spec/30_encoding.md R67). -/
def Response.status : Response → BitVec 2
  | .ok _       => 0#2
  | .fault code => code.status

/-- The placement of a result in R (spec/30_encoding.md R68). -/
def Value.toR : Value → Word
  | .word w => w
  | .byte b => b.setWidth 64
  | .bool b => if b then 1#64 else 0#64
  | .none   => 0#64

/-- The result field R, valid only when STATUS = OK (spec/30_encoding.md R66, R68). -/
def Response.r : Response → Option Word
  | .ok v    => some v.toR
  | .fault _ => none

/-- `RESP[65:0]` as the port carries it, STATUS above R (spec/30_encoding.md R66). The R lines of a fault hold "some value,
the spec does not say which" (R68): that value is the argument `driven`, so a claim holds for every one (log 12). -/
def Response.wires (resp : Response) (driven : Word) : BitVec 66 :=
  (resp.status ++ resp.r.getD driven : BitVec (2 + 64))

end Sys2Proof.Machine
end

