-- ==== Sys2Proof/Safety.lean ====
section
/-! DEFINITION. The terms in which claims are stated: the invariant, what a transaction returns, what a run is. -/

namespace Sys2Proof.Machine

/-! ## The invariant -/

/-- The instance is one that R10 allows, BUF is in its canonical form, and every listed element exists
(spec/00_scope.md R10, spec/20_memory.md R40). -/
abbrev State.inv (s : State) : Prop :=
  s.cfg.legal ∧ s.buf.wf = true ∧ s.buf.below s.cfg.buflen = true

/-! ## What a transaction returns -/

/-- `i` runs to the next state that returns `r` and changes nothing else: no element of BUF, no parameter, no move. -/
def Replies (i : Instr) (s : State) (r : Response) : Prop :=
  exec i s = .next { s with trace := s.trace ++ [.response r] }

/-- `i` runs to a next state that returns `r` and in which BUF reads as `content` says, and nothing else changes. -/
def RepliesWriting (i : Instr) (s : State) (r : Response) (content : Nat → Option Byte) : Prop :=
  ∃ t, exec i s = .next t ∧ t.trace = s.trace ++ [.response r] ∧ t.cfg = s.cfg ∧ t.moves = s.moves ∧
    t.draws = s.draws ∧ ∀ a, t.buf.read a = content a

/-- The same of a whole transaction of a command word. -/
def TransactsWriting (c : Command) (s : State) (r : Response) (content : Nat → Option Byte) : Prop :=
  ∃ t, transact c s = .next t ∧ t.trace = s.trace ++ [.response r] ∧ t.cfg = s.cfg ∧ t.moves = s.moves ∧
    t.draws = s.draws ∧ ∀ a, t.buf.read a = content a

/-- `RangeOk(low, high)` as the spec writes it (spec/41_bitfield.md R122). -/
abbrev RangeOk (low high : Int) : Prop := 0 ≤ low ∧ low ≤ high ∧ high ≤ 63

/-- The instructions whose precondition fails: the table of spec/60_exceptions.md R183, "decoded integers". -/
def Violates (cfg : Config) : Instr → Prop
  | .extractBits low high _     => ¬ (0 ≤ low ∧ low ≤ high ∧ high ≤ 63)
  | .setBitRange low high _     => ¬ (0 ≤ low ∧ low ≤ high ∧ high ≤ 63)
  | .clearBitRange low high _   => ¬ (0 ≤ low ∧ low ≤ high ∧ high ≤ 63)
  | .assignBit bitNum bitVal _  => ¬ (0 ≤ bitNum ∧ bitNum ≤ 63) ∨ ¬ (bitVal = 0 ∨ bitVal = 1)
  | .getByte byteIndex _        => ¬ (0 ≤ byteIndex ∧ byteIndex ≤ 7)
  | .putByte byteIndex _ _      => ¬ (0 ≤ byteIndex ∧ byteIndex ≤ 7)
  | .buildWord _ _ _ _ _ _ _ _  => False
  | .isNegative _               => False
  | .renderBits _               => False
  | .clearBuffer size           => ¬ (0 ≤ size ∧ size ≤ (cfg.buflen : Int))

/-- The operations that never write BUF (spec/10_state.md R26). -/
def neverWrites : Instr → Bool
  | .extractBits _ _ _          => true
  | .setBitRange _ _ _          => true
  | .clearBitRange _ _ _        => true
  | .assignBit _ _ _            => true
  | .getByte _ _                => true
  | .putByte _ _ _              => true
  | .buildWord _ _ _ _ _ _ _ _  => true
  | .isNegative _               => true
  | .renderBits _               => false
  | .clearBuffer _              => false

/-! ## The bit-string, by its index map -/

/-- The index of the digit of bit `k`: `(63 - k) + floor((63 - k) / 8)` (spec/44_bitstring_buffer.md R161). -/
def digitIndex (k : Nat) : Nat := (63 - k) + (63 - k) / 8

/-- The indices of the seven spaces (spec/44_bitstring_buffer.md R161). -/
def spaceIndices : List Nat := [8, 17, 26, 35, 44, 53, 62]

/-- `content` holds the bit-string of `word` at indices 0..71 (spec/44_bitstring_buffer.md R161). -/
def ShowsWord (cfg : Config) (word : Word) (content : Nat → Option Byte) : Prop :=
  (∀ k, k < 64 → content (digitIndex k) = some (if word.getLsbD k then cfg.chOne else cfg.chZero)) ∧
  (∀ i ∈ spaceIndices, content i = some cfg.chSpace) ∧
  content 71 = some cfg.chTerm

/-! ## Runs -/

/-- A response that is not OK (spec/60_exceptions.md R180). -/
def Event.isFault : Event → Bool
  | .response (.fault _) => true
  | .response (.ok _)    => false
  | .read _ _            => false

/-- "A run containing a `Fault` response is a faulted run" (spec/70_reset_and_hazards.md R224): the run-level mark that
the first Fault response sets (spec/60_exceptions.md R189). -/
def State.faulted (s : State) : Bool := s.trace.any Event.isFault

/-- The host names an element that exists (spec/20_memory.md R40). -/
def HostMove.inRange (n : Nat) : HostMove → Prop
  | .present _ => True
  | .read i    => i < n
  | .write i _ => i < n
  | .reset _   => True

/-- The moves that give the host something back: a response, or the value of an element (spec/00_scope.md R7, R8). -/
def HostMove.returns : HostMove → Bool
  | .present _ => true
  | .read _    => true
  | .write _ _ => false
  | .reset _   => false

/-- The number of elements `0..k-1` that a command writes: 72 for renderBits, `size` for a clearBuffer that does not fault,
none for any other command (spec/10_state.md R26). -/
def writtenBy (cfg : Config) (c : Command) : Nat :=
  match decode c with
  | .ok (.renderBits _)     => 72
  | .ok (.clearBuffer size) => if size ≤ (cfg.buflen : Int) then size.toNat else 0
  | _                       => 0

/-- What a command writes to element `a`, if it writes it (spec/10_state.md R26). -/
def writesTo (cfg : Config) (c : Command) (a : Nat) : Option Byte :=
  if a < writtenBy cfg c then
    match decode c with
    | .ok (.renderBits word) => some (bitStringElem cfg word a)
    | _                      => some 0x00#8
  else none

/-- The value of element `a` after a move, from its value before: the move's own write, none after a reset
(spec/20_memory.md R49, spec/70_reset_and_hazards.md R211). -/
def valueAfterMove (cfg : Config) (a : Nat) (before : Option Byte) : HostMove → Option Byte
  | .present c => (writesTo cfg c a).or before
  | .read _    => before
  | .write i v => if i = a then some v else before
  | .reset _   => none

/-- The value of element `a` after a list of moves: that of the latest write to it since the latest reset
(spec/20_memory.md R49). -/
def latestWrite (cfg : Config) (ms : List HostMove) (a : Nat) (start : Option Byte) : Option Byte :=
  ms.foldl (valueAfterMove cfg a) start

end Sys2Proof.Machine
end

