-- ==== Sys2Proof/Certificates/Slice0/Obligations.lean ====
section
/-! DEFINITION. The statements for the provers, by the numbered rules of spec/. Wherever a statement speaks of `step`, `moves` or
`trace`: that a step is one host move is log 1, that the moves to come are a list in State is log 2, and that what they
returned is a list in State is log 5. -/

open Sys2Proof Sys2Proof.Machine

/-! ## The step, reset, and the encoding -/

/-- When the host presents a command that decodes to `i`, the step is `exec i` (spec/00_scope.md R7, spec/60_exceptions.md
R187), and every decoded instruction is well formed (spec/30_encoding.md R62, R75). That one step is one move and takes the
move off the list is the model's choice (logs 1 and 2). -/
def Obligations.StepRunsTheDecodedInstruction : Prop :=
  ∀ (s : State) (c : Command) (rest : List HostMove) (i : Instr),
    s.moves = .present c :: rest → decode c = .ok i →
    i.wf = true ∧ step s = exec i { s with moves := rest }

/-- The reset state meets the invariant; that its parameters are the defaults is the model's choice (log 3). -/
def Obligations.ResetMeetsTheInvariant : Prop := State.reset.inv

/-- After reset no element of BUF has a value and nothing is pending (spec/10_state.md R31, R33). That the parameters, which are
configuration and no state of the reset table (R28), are at the defaults of spec/00_scope.md R10, and that `trace` and `draws`
start empty, are the model's choices (logs 3, 5 and 6). -/
def Obligations.ResetStateIsAsTheTableSays : Prop :=
  (∀ a, State.reset.buf.read a = none) ∧ State.reset.moves = [] ∧ State.reset.trace = [] ∧
  State.reset.cfg.buflen = 72 ∧ State.reset.cfg.chZero = 0x30#8 ∧ State.reset.cfg.chOne = 0x31#8 ∧
  State.reset.cfg.chSpace = 0x20#8 ∧ State.reset.cfg.chTerm = 0x00#8 ∧ State.reset.draws = 0

/-- The command words that the spec writes out decode to the calls printed beside them (spec/30_encoding.md R74,
which the spec marks as derived, and spec/95_test_vectors.md). -/
def Obligations.WrittenOutWordsDecode : Prop :=
  decode 0x013E3FABCDEF0123456789#88 = .ok (.extractBits 62 63 0xabcdef0123456789#64) ∧
  decode 0x020C0F0123456789ABCDEF#88 = .ok (.setBitRange 12 15 0x0123456789abcdef#64) ∧
  decode 0x0305040123456789ABCDEF#88 = .ok (.clearBitRange 5 4 0x0123456789abcdef#64) ∧
  decode 0x0403FF0123456789ABCDEF#88 = .ok (.assignBit 3 (-1) 0x0123456789abcdef#64) ∧
  decode 0x05FF000011223344556677#88 = .ok (.getByte (-1) 0x0011223344556677#64) ∧
  decode 0x0600FF0000000000000000#88 = .ok (.putByte 0 0xff#8 0#64) ∧
  decode 0x0700000000000000F0F0F0#88 =
    .ok (.buildWord 0xf0#8 0xf0#8 0xf0#8 0x00#8 0x00#8 0x00#8 0x00#8 0x00#8) ∧
  decode 0x08AA55ABCDEF0123456789#88 = .ok (.isNegative 0xabcdef0123456789#64) ∧
  decode 0x090000AABBCCDDEE001122#88 = .ok (.renderBits 0xAABBCCDDEE001122#64) ∧
  decode 0x0A48000000000000000000#88 = .ok (.clearBuffer 72) ∧
  decode 0x813E3FABCDEF0123456789#88 = .error (.illegalCommand 0x81#8) ∧
  encode (.extractBits 62 63 0xabcdef0123456789#64) = 0x013E3FABCDEF0123456789#88 ∧
  encode (.buildWord 0xf0#8 0xf0#8 0xf0#8 0#8 0#8 0#8 0#8 0#8) = 0x0700000000000000F0F0F0#88 ∧
  encode (.clearBuffer 72) = 0x0A48000000000000000000#88

/-- The decoder's case table (spec/30_encoding.md R72), with the eight bytes of buildWord cut as R73 says. -/
def Obligations.DecoderFollowsItsCaseTable : Prop :=
  ∀ (a b : Byte) (w : Word),
    decode (mkCommand 0x01#8 a b w) = .ok (.extractBits a.toInt b.toInt w) ∧
    decode (mkCommand 0x02#8 a b w) = .ok (.setBitRange a.toInt b.toInt w) ∧
    decode (mkCommand 0x03#8 a b w) = .ok (.clearBitRange a.toInt b.toInt w) ∧
    decode (mkCommand 0x04#8 a b w) = .ok (.assignBit a.toInt b.toInt w) ∧
    decode (mkCommand 0x05#8 a b w) = .ok (.getByte a.toInt w) ∧
    decode (mkCommand 0x06#8 a b w) = .ok (.putByte a.toInt b w) ∧
    decode (mkCommand 0x07#8 a b w) = .ok (.buildWord (w.extractLsb' 0 8) (w.extractLsb' 8 8) (w.extractLsb' 16 8)
      (w.extractLsb' 24 8) (w.extractLsb' 32 8) (w.extractLsb' 40 8) (w.extractLsb' 48 8) (w.extractLsb' 56 8)) ∧
    decode (mkCommand 0x08#8 a b w) = .ok (.isNegative w) ∧
    decode (mkCommand 0x09#8 a b w) = .ok (.renderBits w) ∧
    decode (mkCommand 0x0A#8 a b w) = .ok (.clearBuffer a.toInt) ∧
    (∀ op : Byte, op = 0#8 ∨ 0x0A < op.toNat → decode (mkCommand op a b w) = .error (.illegalCommand op))

/-- Decoding the canonical encoding of a well-formed instruction gives the instruction back, for every operand value. -/
def Obligations.DecodeInvertsEncode : Prop :=
  ∀ i : Instr, i.wf = true → decode (encode i) = .ok i

/-- Two commands that differ only in ignored fields behave identically, and encoding what was decoded gives the command back
exactly for canonical commands, those whose ignored bits are zero (spec/30_encoding.md R69). -/
def Obligations.IgnoredFieldsDoNotMatter : Prop :=
  (∀ (s : State) (a a' b b' : Byte) (w w' : Word),
    transact (mkCommand 0x05#8 a b w) s = transact (mkCommand 0x05#8 a b' w) s ∧
    transact (mkCommand 0x07#8 a b w) s = transact (mkCommand 0x07#8 a' b' w) s ∧
    transact (mkCommand 0x08#8 a b w) s = transact (mkCommand 0x08#8 a' b' w) s ∧
    transact (mkCommand 0x09#8 a b w) s = transact (mkCommand 0x09#8 a' b' w) s ∧
    transact (mkCommand 0x0A#8 a b w) s = transact (mkCommand 0x0A#8 a b' w') s) ∧
  (∀ (c : Command) (i : Instr), decode c = .ok i →
    (encode i = c ↔
      (opField c = 0x05#8 → bField c = 0#8) ∧
      (opField c = 0x07#8 ∨ opField c = 0x08#8 ∨ opField c = 0x09#8 → aField c = 0#8 ∧ bField c = 0#8) ∧
      (opField c = 0x0A#8 → bField c = 0#8 ∧ wField c = 0#64)))

/-- OP = 0x00 and 0x0B..0xFF: IllegalCommand whatever the other fields hold, nothing written, no result. Every other command
word is one of the ten operations, the one its OP names (spec/30_encoding.md R65, spec/60_exceptions.md R182). -/
def Obligations.ReservedOpcodesAreIllegalCommands : Prop :=
  ∀ c : Command,
    ((opField c).toNat = 0 ∨ 0x0B ≤ (opField c).toNat →
      ∀ (s : State) (rest : List HostMove), s.moves = .present c :: rest →
        step s = .next { s with moves := rest, trace := s.trace ++ [.response (.fault .illegalCommand)] }) ∧
    (1 ≤ (opField c).toNat → (opField c).toNat ≤ 0x0A → ∃ i : Instr, decode c = .ok i ∧ i.op = opField c)

/-- The response's fields: STATUS above R, the STATUS codes, and the placement of the four result types; a fault has no value
at the decoded level (spec/30_encoding.md R66, R67, R68). That the R lines of a fault carry `driven`, an argument that nothing
constrains, is the model's view of "some value, the spec does not say which" (log 12). -/
def Obligations.ResponseFieldsAreAsEncoded : Prop :=
  (∀ (r : Response) (driven : Word),
    (r.wires driven).extractLsb' 64 2 = r.status ∧ r.status ≠ 3#2 ∧
    (∀ v : Value, r = .ok v → r.status = 0#2 ∧ r.r = some v.toR ∧ (r.wires driven).extractLsb' 0 64 = v.toR) ∧
    (r = .fault .invalidArgument → r.status = 1#2 ∧ r.r = none) ∧
    (r = .fault .illegalCommand → r.status = 2#2 ∧ r.r = none) ∧
    (∀ code, r = .fault code → (r.wires driven).extractLsb' 0 64 = driven)) ∧
  (∀ w : Word, (Value.word w).toR = w) ∧
  (∀ b : Byte, (Value.byte b).toR.extractLsb' 0 8 = b ∧ (Value.byte b).toR.extractLsb' 8 56 = 0#56) ∧
  (Value.bool true).toR = 1#64 ∧ (Value.bool false).toR = 0#64 ∧ Value.none.toR = 0#64

/-! ## The primitives -/

/-- AND, OR, NOT, SHL and SHR as the spec defines them, with its examples (spec/40_datapath_primitives.md R90 to
R94, most of them marked there as general knowledge). -/
def Obligations.PrimitivesActBitByBit : Prop :=
  (∀ (a b : Word) (i : Nat), i < 64 →
    (wordAnd a b).getLsbD i = (a.getLsbD i && b.getLsbD i) ∧
    (wordOr a b).getLsbD i = (a.getLsbD i || b.getLsbD i) ∧
    (wordNot a).getLsbD i = !a.getLsbD i) ∧
  (∀ a : Word, (wordNot a).toNat = 2 ^ 64 - 1 - a.toNat) ∧
  (∀ (v : Word) (n : Fin 64), (shl v n).toNat = v.toNat * 2 ^ n.val % 2 ^ 64 ∧ (shr v n).toNat = v.toNat / 2 ^ n.val ∧
    (∀ i < 64, (shl v n).getLsbD i = if n.val ≤ i then v.getLsbD (i - n.val) else false) ∧
    (∀ i < 64, (shr v n).getLsbD i = if i + n.val ≤ 63 then v.getLsbD (i + n.val) else false)) ∧
  (∀ v : Word, shl v 0 = v ∧ shr v 0 = v) ∧
  wordAnd 0x00000000000000FF#64 0xabcdef0123456789#64 = 0x0000000000000089#64 ∧
  wordOr 0x0123456789abcdef#64 0x000000000000F000#64 = 0x0123456789abfdef#64 ∧
  wordNot 0x000000000000F000#64 = 0xFFFFFFFFFFFF0FFF#64 ∧
  shl 0x00000000000000FF#64 24 = 0x00000000FF000000#64 ∧
  shr 0xabcdef0123456789#64 62 = 0x0000000000000002#64

/-- MASK and ONES: as numbers, as bits, and in the forms that never leave 64 bits, with the spec's corner cases
(spec/40_datapath_primitives.md R95, R96, which the spec marks as derived). -/
def Obligations.MaskAndOnesAreExact : Prop :=
  (∀ r : BitRange,
    (mask r).toNat = 2 ^ (r.high.val + 1) - 2 ^ r.low.val ∧
    mask r = shl (ones (r.high.val - r.low.val + 1)) r.low ∧
    (∀ i, (mask r).getLsbD i = decide (r.low.val ≤ i ∧ i ≤ r.high.val)) ∧
    (r.low.val = 0 → r.high.val = 0 → mask r = 0x0000000000000001#64) ∧
    (r.low.val = 63 → r.high.val = 63 → mask r = 0x8000000000000000#64) ∧
    (r.low.val = 0 → r.high.val = 63 → mask r = 0xFFFFFFFFFFFFFFFF#64) ∧
    (r.low = r.high → (mask r).toNat = 2 ^ r.low.val) ∧
    (r.low.val = 12 → r.high.val = 15 → mask r = 0x000000000000F000#64)) ∧
  (∀ (n : Nat) (amount : Fin 64), 1 ≤ n → n ≤ 64 → amount.val = 64 - n →
    (ones n).toNat = 2 ^ n - 1 ∧ ones n = shr 0xFFFFFFFFFFFFFFFF#64 amount ∧
    (∀ i, (ones n).getLsbD i = decide (i ≤ n - 1))) ∧
  ones 64 = 0xFFFFFFFFFFFFFFFF#64 ∧ ones 4 = 0x000000000000000F#64

/-- The seven rows of the boundary table (spec/40_datapath_primitives.md R97, which
the spec marks as derived), and the shifts at the two ends. -/
def Obligations.BoundaryMasksAreAsTabled : Prop :=
  (bitRange? 0 0).map mask = some 0x0000000000000001#64 ∧
  (bitRange? 63 63).map mask = some 0x8000000000000000#64 ∧
  (bitRange? 0 63).map mask = some 0xFFFFFFFFFFFFFFFF#64 ∧
  (bitRange? 0 7).map mask = some 0x00000000000000FF#64 ∧ (byteShift 0).val = 0 ∧
  (bitRange? 56 63).map mask = some 0xFF00000000000000#64 ∧ (byteShift 7).val = 56 ∧
  (bitRange? 32 63).map mask = some 0xFFFFFFFF00000000#64 ∧
  (bitRange? 31 32).map mask = some 0x0000000180000000#64

/-- The laws of masks, for every word and every range (spec/40_datapath_primitives.md R100, which the spec marks as derived). -/
def Obligations.MaskLawsHold : Prop :=
  (∀ (w : Word) (r : BitRange),
    wordAnd (mask r) (wordNot (mask r)) = 0#64 ∧
    wordOr (mask r) (wordNot (mask r)) = 0xFFFFFFFFFFFFFFFF#64 ∧
    shr (mask r) r.low = ones (r.high.val - r.low.val + 1) ∧
    shr (wordAnd w (mask r)) r.low = wordAnd (shr w r.low) (ones (r.high.val - r.low.val + 1)) ∧
    wordAnd (wordOr w (mask r)) (wordNot (mask r)) = wordAnd w (wordNot (mask r)) ∧
    wordOr (wordAnd w (wordNot (mask r))) (mask r) = wordOr w (mask r)) ∧
  (∀ byteRange : Fin 8 → BitRange,
    (∀ k, (byteRange k).low.val = 8 * k.val ∧ (byteRange k).high.val = 8 * k.val + 7) →
    (∀ i j, i ≠ j → wordAnd (mask (byteRange i)) (mask (byteRange j)) = 0#64) ∧
    wordOr (wordOr (wordOr (wordOr (wordOr (wordOr (wordOr (mask (byteRange 0)) (mask (byteRange 1)))
      (mask (byteRange 2))) (mask (byteRange 3))) (mask (byteRange 4))) (mask (byteRange 5)))
      (mask (byteRange 6))) (mask (byteRange 7)) = 0xFFFFFFFFFFFFFFFF#64)

/-! ## extractBits, setBitRange, clearBitRange, assignBit -/

/-- extractBits: its encoding, its fault, and its result bit by bit, nothing else changed (spec/41_bitfield.md R110). -/
def Obligations.ExtractBitsReturnsTheField : Prop :=
  ∀ (s : State) (word : Word),
    (∀ a b : Byte, decode (mkCommand 0x01#8 a b word) = .ok (.extractBits a.toInt b.toInt word)) ∧
    (∀ low high : Int, ¬ (0 ≤ low ∧ low ≤ high ∧ high ≤ 63) →
      exec (.extractBits low high word) s =
        .next { s with trace := s.trace ++ [.response (.fault .invalidArgument)] }) ∧
    (∀ low high : Nat, low ≤ high → high ≤ 63 → ∃ r : Word,
      exec (.extractBits low high word) s = .next { s with trace := s.trace ++ [.response (.ok (.word r))] } ∧
      ∀ i, r.getLsbD i = if i ≤ high - low then word.getLsbD (low + i) else false) ∧
    decode 0x013E3FABCDEF0123456789#88 = .ok (.extractBits 62 63 0xabcdef0123456789#64) ∧
    exec (.extractBits 62 63 0xabcdef0123456789#64) s =
      .next { s with trace := s.trace ++ [.response (.ok (.word 0x0000000000000002#64))] }

/-- setBitRange: its encoding, its fault, and its result bit by bit, nothing else changed (spec/41_bitfield.md R113). -/
def Obligations.SetBitRangeForcesTheRangeToOne : Prop :=
  ∀ (s : State) (word : Word),
    (∀ a b : Byte, decode (mkCommand 0x02#8 a b word) = .ok (.setBitRange a.toInt b.toInt word)) ∧
    (∀ low high : Int, ¬ (0 ≤ low ∧ low ≤ high ∧ high ≤ 63) →
      exec (.setBitRange low high word) s =
        .next { s with trace := s.trace ++ [.response (.fault .invalidArgument)] }) ∧
    (∀ low high : Nat, low ≤ high → high ≤ 63 → ∃ r : Word,
      exec (.setBitRange low high word) s = .next { s with trace := s.trace ++ [.response (.ok (.word r))] } ∧
      ∀ i, r.getLsbD i = if low ≤ i ∧ i ≤ high then true else word.getLsbD i) ∧
    decode 0x020C0F0123456789ABCDEF#88 = .ok (.setBitRange 12 15 0x0123456789abcdef#64) ∧
    exec (.setBitRange 12 15 0x0123456789abcdef#64) s =
      .next { s with trace := s.trace ++ [.response (.ok (.word 0x0123456789abfdef#64))] }

/-- clearBitRange: its encoding, its fault, and its result bit by bit, nothing else changed (spec/41_bitfield.md R116). -/
def Obligations.ClearBitRangeForcesTheRangeToZero : Prop :=
  ∀ (s : State) (word : Word),
    (∀ a b : Byte, decode (mkCommand 0x03#8 a b word) = .ok (.clearBitRange a.toInt b.toInt word)) ∧
    (∀ low high : Int, ¬ (0 ≤ low ∧ low ≤ high ∧ high ≤ 63) →
      exec (.clearBitRange low high word) s =
        .next { s with trace := s.trace ++ [.response (.fault .invalidArgument)] }) ∧
    (∀ low high : Nat, low ≤ high → high ≤ 63 → ∃ r : Word,
      exec (.clearBitRange low high word) s = .next { s with trace := s.trace ++ [.response (.ok (.word r))] } ∧
      ∀ i, r.getLsbD i = if low ≤ i ∧ i ≤ high then false else word.getLsbD i) ∧
    decode 0x030C0F0123456789ABCDEF#88 = .ok (.clearBitRange 12 15 0x0123456789abcdef#64) ∧
    exec (.clearBitRange 12 15 0x0123456789abcdef#64) s =
      .next { s with trace := s.trace ++ [.response (.ok (.word 0x0123456789ab0def#64))] }

/-- assignBit: its encoding, its two faults, and its result bit by bit and in the form with no choice on bitVal, nothing else
changed (spec/41_bitfield.md R119, R120). -/
def Obligations.AssignBitSetsOneBit : Prop :=
  ∀ (s : State) (word : Word),
    (∀ a b : Byte, decode (mkCommand 0x04#8 a b word) = .ok (.assignBit a.toInt b.toInt word)) ∧
    (∀ bitNum bitVal : Int, ¬ (0 ≤ bitNum ∧ bitNum ≤ 63) ∨ ¬ (bitVal = 0 ∨ bitVal = 1) →
      exec (.assignBit bitNum bitVal word) s =
        .next { s with trace := s.trace ++ [.response (.fault .invalidArgument)] }) ∧
    (∀ (bitNum : Nat) (bitVal : Int), bitNum ≤ 63 → bitVal = 0 ∨ bitVal = 1 → ∃ r : Word,
      exec (.assignBit bitNum bitVal word) s = .next { s with trace := s.trace ++ [.response (.ok (.word r))] } ∧
      (∀ i, r.getLsbD i = if i = bitNum then decide (bitVal = 1) else word.getLsbD i) ∧
      (∀ n : Fin 64, n.val = bitNum →
        r = wordOr (wordAnd word (wordNot (mask (.single n)))) (shl (BitVec.ofInt 64 bitVal) n))) ∧
    decode 0x040C010123456789ABCDEF#88 = .ok (.assignBit 12 1 0x0123456789abcdef#64) ∧
    exec (.assignBit 12 1 0x0123456789abcdef#64) s =
      .next { s with trace := s.trace ++ [.response (.ok (.word 0x0123456789abddef#64))] }

/-- RangeOk decides the three range operations, and in the 8-bit fields it is `A <= B <= 0x3F` unsigned
(spec/41_bitfield.md R122). -/
def Obligations.RangeOkDecidesTheRangeOperations : Prop :=
  (∀ (s : State) (word : Word) (low high : Int),
    (¬ RangeOk low high →
      Replies (.extractBits low high word) s (.fault .invalidArgument) ∧
      Replies (.setBitRange low high word) s (.fault .invalidArgument) ∧
      Replies (.clearBitRange low high word) s (.fault .invalidArgument)) ∧
    (RangeOk low high → ∃ x y z : Word,
      Replies (.extractBits low high word) s (.ok (.word x)) ∧
      Replies (.setBitRange low high word) s (.ok (.word y)) ∧
      Replies (.clearBitRange low high word) s (.ok (.word z)))) ∧
  (∀ a b : Byte, RangeOk a.toInt b.toInt ↔ a.toNat ≤ b.toNat ∧ b.toNat ≤ 0x3F)

/-- The corner cases of extractBits (spec/41_bitfield.md R111). -/
def Obligations.ExtractBitsCornerCases : Prop :=
  ∀ (s : State) (w : Word),
    (∀ n : Nat, n ≤ 63 → Replies (.extractBits n n w) s (.ok (.word (if w.getLsbD n then 1#64 else 0#64)))) ∧
    Replies (.extractBits 0 63 w) s (.ok (.word w)) ∧
    (∀ low high : Nat, low ≤ high → high ≤ 63 →
      Replies (.extractBits low high 0#64) s (.ok (.word 0#64)) ∧
      Replies (.extractBits low high 0xFFFFFFFFFFFFFFFF#64) s
        (.ok (.word (BitVec.ofNat 64 (2 ^ (high - low + 1) - 1)))) ∧
      (∃ r : Word, Replies (.extractBits low high w) s (.ok (.word r)) ∧ ∀ i, high - low < i → r.getLsbD i = false)) ∧
    Replies (.extractBits 12 15 0x0123456789abcdef#64) s (.ok (.word 0xc#64))

/-- The five faulting calls of extractBits that the spec lists, beside the one that does not fault
(spec/41_bitfield.md R112, which the spec marks as derived). -/
def Obligations.ExtractBitsFaultsAsListed : Prop :=
  ∀ (s : State) (w : Word),
    (∀ p ∈ [((16, 12) : Int × Int), (0, 64), (64, 64), (-1, 5), (64, 3)],
      Replies (.extractBits p.1 p.2 w) s (.fault .invalidArgument)) ∧
    (∃ r : Word, Replies (.extractBits 5 5 w) s (.ok (.word r)))

/-- The corner cases of setBitRange: the full range, the single ends, idempotence, all ones unchanged, and the faults as
listed for extractBits (spec/41_bitfield.md R114, which the spec marks as derived). -/
def Obligations.SetBitRangeCornerCases : Prop :=
  ∀ (s : State) (w : Word),
    Replies (.setBitRange 0 63 w) s (.ok (.word 0xFFFFFFFFFFFFFFFF#64)) ∧
    Replies (.setBitRange 0 0 w) s (.ok (.word (w ||| 1#64))) ∧
    Replies (.setBitRange 63 63 w) s (.ok (.word (w ||| 0x8000000000000000#64))) ∧
    Replies (.setBitRange 63 63 0#64) s (.ok (.word 0x8000000000000000#64)) ∧
    (∀ p ∈ [((16, 12) : Int × Int), (0, 64), (64, 64), (-1, 5), (64, 3)],
      Replies (.setBitRange p.1 p.2 w) s (.fault .invalidArgument)) ∧
    (∀ low high : Nat, low ≤ high → high ≤ 63 →
      (∃ r : Word, Replies (.setBitRange low high w) s (.ok (.word r)) ∧
        Replies (.setBitRange low high r) s (.ok (.word r))) ∧
      Replies (.setBitRange low high 0xFFFFFFFFFFFFFFFF#64) s (.ok (.word 0xFFFFFFFFFFFFFFFF#64)))

/-- setBitRange then extractBits over the same range gives all ones (spec/41_bitfield.md R115). -/
def Obligations.SetThenExtractGivesAllOnes : Prop :=
  ∀ (s u : State) (w : Word) (low high : Nat), low ≤ high → high ≤ 63 → ∃ r : Word,
    Replies (.setBitRange low high w) s (.ok (.word r)) ∧
    Replies (.extractBits low high r) u (.ok (.word (BitVec.ofNat 64 (2 ^ (high - low + 1) - 1)))) ∧
    (low = 0 → high = 63 → Replies (.extractBits low high r) u (.ok (.word 0xFFFFFFFFFFFFFFFF#64)))

/-- The corner cases of clearBitRange: the full range, the single ends, idempotence, zero unchanged, the faults as listed
for extractBits, and extractBits over the cleared range gives 0 (spec/41_bitfield.md R117). -/
def Obligations.ClearBitRangeCornerCases : Prop :=
  ∀ (s u : State) (w : Word),
    Replies (.clearBitRange 0 63 w) s (.ok (.word 0#64)) ∧
    Replies (.clearBitRange 63 63 0xFFFFFFFFFFFFFFFF#64) s (.ok (.word 0x7FFFFFFFFFFFFFFF#64)) ∧
    Replies (.clearBitRange 63 63 w) s (.ok (.word (w &&& 0x7FFFFFFFFFFFFFFF#64))) ∧
    Replies (.clearBitRange 0 0 w) s (.ok (.word (w &&& 0xFFFFFFFFFFFFFFFE#64))) ∧
    (∀ p ∈ [((16, 12) : Int × Int), (0, 64), (64, 64), (-1, 5), (64, 3)],
      Replies (.clearBitRange p.1 p.2 w) s (.fault .invalidArgument)) ∧
    (∀ low high : Nat, low ≤ high → high ≤ 63 →
      (∃ r : Word, Replies (.clearBitRange low high w) s (.ok (.word r)) ∧
        Replies (.clearBitRange low high r) s (.ok (.word r)) ∧
        Replies (.extractBits low high r) u (.ok (.word 0#64))) ∧
      Replies (.clearBitRange low high 0#64) s (.ok (.word 0#64)))

/-- Outside the range set and clear change nothing that extractBits can see, and, for every valid range, the full one included,
clearing after setting is clearing (spec/41_bitfield.md R118, which the spec marks as derived). -/
def Obligations.SetAndClearAreComplementary : Prop :=
  ∀ (s : State) (w : Word) (low high : Nat), low ≤ high → high ≤ 63 → ∃ x y : Word,
    Replies (.setBitRange low high w) s (.ok (.word x)) ∧
    Replies (.clearBitRange low high w) s (.ok (.word y)) ∧
    Replies (.clearBitRange low high x) s (.ok (.word y)) ∧
    (∀ low' high' : Nat, low' ≤ high' → high' ≤ 63 → high' < low ∨ high < low' → ∃ v : Word,
      Replies (.extractBits low' high' w) s (.ok (.word v)) ∧
      Replies (.extractBits low' high' x) s (.ok (.word v)) ∧
      Replies (.extractBits low' high' y) s (.ok (.word v)))

/-- The laws of assignBit: it is setBitRange or clearBitRange of one position, the last assignment wins, the bit reads back,
and its listed faults (spec/41_bitfield.md R121 items (a) to (f), which the spec marks as derived but for (d)). -/
def Obligations.AssignBitLaws : Prop :=
  ∀ (s : State) (w : Word),
    (∀ n : Nat, n ≤ 63 →
      Replies (.assignBit n (if w.getLsbD n then 1 else 0) w) s (.ok (.word w)) ∧
      (∃ x : Word, Replies (.assignBit n 1 w) s (.ok (.word x)) ∧ Replies (.setBitRange n n w) s (.ok (.word x))) ∧
      (∃ y : Word, Replies (.assignBit n 0 w) s (.ok (.word y)) ∧ Replies (.clearBitRange n n w) s (.ok (.word y))) ∧
      (∀ v v' : Int, v = 0 ∨ v = 1 → v' = 0 ∨ v' = 1 → ∃ x y : Word,
        Replies (.assignBit n v w) s (.ok (.word x)) ∧
        Replies (.extractBits n n x) s (.ok (.word (BitVec.ofInt 64 v))) ∧
        Replies (.assignBit n v' x) s (.ok (.word y)) ∧
        Replies (.assignBit n v' w) s (.ok (.word y)) ∧
        y.getLsbD n = decide (v' = 1) ∧ ∀ i, i ≠ n → y.getLsbD i = w.getLsbD i)) ∧
    Replies (.assignBit 12 0 0x0123456789abcdef#64) s (.ok (.word 0x0123456789abcdef#64)) ∧
    Replies (.assignBit 63 1 0xFFFFFFFFFFFFFFFF#64) s (.ok (.word 0xFFFFFFFFFFFFFFFF#64)) ∧
    Replies (.assignBit 0 1 0#64) s (.ok (.word 0x0000000000000001#64)) ∧
    Replies (.assignBit 63 1 0#64) s (.ok (.word 0x8000000000000000#64)) ∧
    Replies (.assignBit 63 0 0xFFFFFFFFFFFFFFFF#64) s (.ok (.word 0x7FFFFFFFFFFFFFFF#64)) ∧
    Replies (.assignBit 0 0 0xFFFFFFFFFFFFFFFF#64) s (.ok (.word 0xFFFFFFFFFFFFFFFE#64)) ∧
    (∀ p ∈ [((64, 0) : Int × Int), (-1, 1), (3, 2), (3, -1), (3, 255)],
      Replies (.assignBit p.1 p.2 w) s (.fault .invalidArgument)) ∧
    encode (.assignBit 3 (-1) w) = encode (.assignBit 3 255 w) ∧ bField (encode (.assignBit 3 (-1) w)) = 0xFF#8

/-- The three scenarios whose printed results are wrong: the contracts' results on the printed input, and the printed
results on the input 0x0123456789abcfff (spec/41_bitfield.md R124, spec/90_conflicts.md C1). -/
def Obligations.ContractsDecideTheWrongLiterals : Prop :=
  ∀ s : State,
    Replies (.setBitRange 12 15 0x0123456789abcdef#64) s (.ok (.word 0x0123456789abfdef#64)) ∧
    Replies (.clearBitRange 12 15 0x0123456789abcdef#64) s (.ok (.word 0x0123456789ab0def#64)) ∧
    Replies (.assignBit 12 1 0x0123456789abcdef#64) s (.ok (.word 0x0123456789abddef#64)) ∧
    Replies (.setBitRange 12 15 0x0123456789abcfff#64) s (.ok (.word 0x0123456789abffff#64)) ∧
    Replies (.clearBitRange 12 15 0x0123456789abcfff#64) s (.ok (.word 0x0123456789ab0fff#64)) ∧
    Replies (.assignBit 12 1 0x0123456789abcfff#64) s (.ok (.word 0x0123456789abdfff#64))

/-! ## getByte, putByte, buildWord, isNegative -/

/-- getByte: its encoding, its fault, and its result, zero-extended in R, nothing else changed (spec/42_byte.md R130). -/
def Obligations.GetByteReturnsTheByte : Prop :=
  ∀ (s : State) (word : Word),
    (∀ a b : Byte, decode (mkCommand 0x05#8 a b word) = .ok (.getByte a.toInt word)) ∧
    (∀ byteIndex : Int, ¬ (0 ≤ byteIndex ∧ byteIndex ≤ 7) →
      exec (.getByte byteIndex word) s =
        .next { s with trace := s.trace ++ [.response (.fault .invalidArgument)] }) ∧
    (∀ k : Nat, k ≤ 7 → ∃ r : Byte,
      exec (.getByte k word) s = .next { s with trace := s.trace ++ [.response (.ok (.byte r))] } ∧
      (∀ i, i < 8 → r.getLsbD i = word.getLsbD (8 * k + i)) ∧
      (Value.byte r).toR.toNat = r.toNat) ∧
    decode 0x0503000011223344556677#88 = .ok (.getByte 3 0x0011223344556677#64) ∧
    exec (.getByte 3 0x0011223344556677#64) s =
      .next { s with trace := s.trace ++ [.response (.ok (.byte 0x44#8))] }

/-- getByte's corner cases: it is extractBits of the byte's positions, the two ends, the eight bytes of the example, and
its listed faults (spec/42_byte.md R131, which the spec marks as derived). -/
def Obligations.GetByteCornerCases : Prop :=
  ∀ (s : State) (w : Word),
    (∀ i : Nat, i ≤ 7 → ∃ r : Byte,
      Replies (.getByte i w) s (.ok (.byte r)) ∧
      Replies (.extractBits (8 * i : Nat) (8 * i + 7 : Nat) w) s (.ok (.word (Value.byte r).toR)) ∧
      ∀ j, 8 ≤ j → (Value.byte r).toR.getLsbD j = false) ∧
    Replies (.getByte 0 w) s (.ok (.byte (w.extractLsb' 0 8))) ∧
    Replies (.getByte 7 w) s (.ok (.byte (w.extractLsb' 56 8))) ∧
    (∀ p ∈ [((0, 0x77#8) : Int × Byte), (1, 0x66#8), (2, 0x55#8), (3, 0x44#8), (4, 0x33#8), (5, 0x22#8), (6, 0x11#8),
        (7, 0x00#8)], Replies (.getByte p.1 0x0011223344556677#64) s (.ok (.byte p.2))) ∧
    Replies (.getByte 7 0xabcdef0123456789#64) s (.ok (.byte 0xab#8)) ∧
    Replies (.getByte 8 w) s (.fault .invalidArgument) ∧
    Replies (.getByte (-1) w) s (.fault .invalidArgument) ∧
    Replies (.getByte 64 w) s (.fault .invalidArgument)

/-- putByte: its encoding, its fault, and its result: the byte is byteVal whatever it held before, every other bit is
unchanged, nothing else changed (spec/42_byte.md R133, R135). -/
def Obligations.PutByteReplacesTheByte : Prop :=
  ∀ (s : State) (word : Word) (byteVal : Byte),
    (∀ a : Byte, decode (mkCommand 0x06#8 a byteVal word) = .ok (.putByte a.toInt byteVal word)) ∧
    (∀ byteIndex : Int, ¬ (0 ≤ byteIndex ∧ byteIndex ≤ 7) →
      exec (.putByte byteIndex byteVal word) s =
        .next { s with trace := s.trace ++ [.response (.fault .invalidArgument)] }) ∧
    (∀ k : Nat, k ≤ 7 → ∃ r : Word,
      exec (.putByte k byteVal word) s = .next { s with trace := s.trace ++ [.response (.ok (.word r))] } ∧
      ∀ i, r.getLsbD i =
        if 8 * k ≤ i ∧ i ≤ 8 * k + 7 then byteVal.getLsbD (i - 8 * k) else word.getLsbD i) ∧
    decode 0x0603000011223344556677#88 = .ok (.putByte 3 0x00#8 0x0011223344556677#64) ∧
    exec (.putByte 3 0x00#8 0x0011223344556677#64) s =
      .next { s with trace := s.trace ++ [.response (.ok (.word 0x0011223300556677#64))] }

/-- putByte's laws: the values of the spec, writing what is there, read-back, the last write wins, writes to different
indices commute, and its listed faults (spec/42_byte.md R136, which the spec marks as derived but for (e)). -/
def Obligations.PutByteLaws : Prop :=
  ∀ (s : State) (w : Word),
    Replies (.putByte 0 0xA5#8 0x0011223344556677#64) s (.ok (.word 0x00112233445566A5#64)) ∧
    Replies (.putByte 7 0xA5#8 0x0011223344556677#64) s (.ok (.word 0xA511223344556677#64)) ∧
    Replies (.putByte 7 0x80#8 0#64) s (.ok (.word 0x8000000000000000#64)) ∧
    Replies (.putByte 3 0x00#8 0xFFFFFFFFFFFFFFFF#64) s (.ok (.word 0xFFFFFFFF00FFFFFF#64)) ∧
    Replies (.putByte 3 0x0F#8 0x00000000F0000000#64) s (.ok (.word 0x000000000F000000#64)) ∧
    (∀ (i : Nat) (v v' : Byte), i ≤ 7 → ∃ x y : Word,
      Replies (.putByte i v w) s (.ok (.word x)) ∧
      Replies (.getByte i x) s (.ok (.byte v)) ∧
      Replies (.putByte i v x) s (.ok (.word x)) ∧
      Replies (.putByte i v' x) s (.ok (.word y)) ∧
      Replies (.putByte i v' w) s (.ok (.word y)) ∧
      (∀ j : Nat, j ≤ 7 → j ≠ i →
        (∃ b : Byte, Replies (.getByte j x) s (.ok (.byte b)) ∧ Replies (.getByte j w) s (.ok (.byte b))) ∧
        (∃ p q : Word, Replies (.putByte j v' w) s (.ok (.word p)) ∧ Replies (.putByte j v' x) s (.ok (.word q)) ∧
          Replies (.putByte i v p) s (.ok (.word q))))) ∧
    (∀ (i : Nat) (b : Byte), i ≤ 7 → Replies (.getByte i w) s (.ok (.byte b)) →
      Replies (.putByte i b w) s (.ok (.word w))) ∧
    (∀ v : Byte, Replies (.putByte 8 v w) s (.fault .invalidArgument) ∧
      Replies (.putByte (-1) v w) s (.fault .invalidArgument) ∧
      Replies (.putByte 255 v w) s (.fault .invalidArgument))

/-- buildWord: its encoding, and its result as bytes and as a number, with no fault and nothing else changed; all eight bytes
are combined alike (spec/42_byte.md R137, R138). -/
def Obligations.BuildWordConcatenatesTheBytes : Prop :=
  ∀ (s : State) (b0 b1 b2 b3 b4 b5 b6 b7 : Byte), ∃ r : Word,
    exec (.buildWord b0 b1 b2 b3 b4 b5 b6 b7) s = .next { s with trace := s.trace ++ [.response (.ok (.word r))] } ∧
    r.toNat = b0.toNat + b1.toNat * 256 + b2.toNat * 256 ^ 2 + b3.toNat * 256 ^ 3 + b4.toNat * 256 ^ 4 +
      b5.toNat * 256 ^ 5 + b6.toNat * 256 ^ 6 + b7.toNat * 256 ^ 7 ∧
    r.extractLsb' 0 8 = b0 ∧ r.extractLsb' 8 8 = b1 ∧ r.extractLsb' 16 8 = b2 ∧ r.extractLsb' 24 8 = b3 ∧
    r.extractLsb' 32 8 = b4 ∧ r.extractLsb' 40 8 = b5 ∧ r.extractLsb' 48 8 = b6 ∧ r.extractLsb' 56 8 = b7 ∧
    (∀ a b : Byte, decode (mkCommand 0x07#8 a b r) = .ok (.buildWord b0 b1 b2 b3 b4 b5 b6 b7)) ∧
    decode 0x0700000000000000F0F0F0#88 = .ok (.buildWord 0xf0#8 0xf0#8 0xf0#8 0#8 0#8 0#8 0#8 0#8) ∧
    exec (.buildWord 0xf0#8 0xf0#8 0xf0#8 0#8 0#8 0#8 0#8 0#8) s =
      .next { s with trace := s.trace ++ [.response (.ok (.word 0x0000000000f0f0f0#64))] }

/-- buildWord's laws: the result is the command's W field, the order of the operands, no carry between bytes, it inverts
byte decomposition both ways, and the byte reversal of the example (spec/42_byte.md R139, which the spec marks as
derived but for (e)). -/
def Obligations.BuildWordInvertsByteDecomposition : Prop :=
  ∀ s : State,
    (∀ (a b : Byte) (w : Word),
      transact (mkCommand 0x07#8 a b w) s = .next { s with trace := s.trace ++ [.response (.ok (.word w))] }) ∧
    Replies (.buildWord 0x01#8 0x02#8 0x03#8 0x04#8 0x05#8 0x06#8 0x07#8 0x08#8) s (.ok (.word 0x0807060504030201#64)) ∧
    Replies (.buildWord 0x80#8 0#8 0#8 0#8 0#8 0#8 0#8 0#8) s (.ok (.word 0x0000000000000080#64)) ∧
    Replies (.buildWord 0#8 0#8 0#8 0#8 0#8 0#8 0#8 0x80#8) s (.ok (.word 0x8000000000000000#64)) ∧
    Replies (.buildWord 0xFF#8 0xFF#8 0xFF#8 0xFF#8 0xFF#8 0xFF#8 0xFF#8 0xFF#8) s (.ok (.word 0xFFFFFFFFFFFFFFFF#64)) ∧
    Replies (.buildWord 0#8 0#8 0#8 0#8 0#8 0#8 0#8 0#8) s (.ok (.word 0#64)) ∧
    (∀ w : Word, ∃ b0 b1 b2 b3 b4 b5 b6 b7 : Byte,
      Replies (.getByte 0 w) s (.ok (.byte b0)) ∧ Replies (.getByte 1 w) s (.ok (.byte b1)) ∧
      Replies (.getByte 2 w) s (.ok (.byte b2)) ∧ Replies (.getByte 3 w) s (.ok (.byte b3)) ∧
      Replies (.getByte 4 w) s (.ok (.byte b4)) ∧ Replies (.getByte 5 w) s (.ok (.byte b5)) ∧
      Replies (.getByte 6 w) s (.ok (.byte b6)) ∧ Replies (.getByte 7 w) s (.ok (.byte b7)) ∧
      Replies (.buildWord b0 b1 b2 b3 b4 b5 b6 b7) s (.ok (.word w))) ∧
    (∀ b0 b1 b2 b3 b4 b5 b6 b7 : Byte, ∃ w : Word,
      Replies (.buildWord b0 b1 b2 b3 b4 b5 b6 b7) s (.ok (.word w)) ∧
      w.toNat = b0.toNat + b1.toNat * 256 + b2.toNat * 256 ^ 2 + b3.toNat * 256 ^ 3 + b4.toNat * 256 ^ 4 +
        b5.toNat * 256 ^ 5 + b6.toNat * 256 ^ 6 + b7.toNat * 256 ^ 7 ∧
      Replies (.getByte 0 w) s (.ok (.byte b0)) ∧ Replies (.getByte 1 w) s (.ok (.byte b1)) ∧
      Replies (.getByte 2 w) s (.ok (.byte b2)) ∧ Replies (.getByte 3 w) s (.ok (.byte b3)) ∧
      Replies (.getByte 4 w) s (.ok (.byte b4)) ∧ Replies (.getByte 5 w) s (.ok (.byte b5)) ∧
      Replies (.getByte 6 w) s (.ok (.byte b6)) ∧ Replies (.getByte 7 w) s (.ok (.byte b7))) ∧
    Replies (.buildWord 0x00#8 0x11#8 0x22#8 0x33#8 0x44#8 0x55#8 0x66#8 0x77#8) s (.ok (.word 0x7766554433221100#64))

/-- isNegative: its encoding and its result, bit 63, in R[0]; no fault, and nothing else changed (spec/43_sign_test.md
R150). -/
def Obligations.IsNegativeReturnsBit63 : Prop :=
  ∀ (s : State) (word : Word),
    (∀ a b : Byte, decode (mkCommand 0x08#8 a b word) = .ok (.isNegative word)) ∧
    exec (.isNegative word) s =
      .next { s with trace := s.trace ++ [.response (.ok (.bool (word.getLsbD 63)))] } ∧
    (Value.bool (word.getLsbD 63)).toR = word >>> 63 ∧
    decode 0x080000ABCDEF0123456789#88 = .ok (.isNegative 0xabcdef0123456789#64) ∧
    exec (.isNegative 0xabcdef0123456789#64) s = .next { s with trace := s.trace ++ [.response (.ok (.bool true))] } ∧
    exec (.isNegative 0x0123456789abcdef#64) s = .next { s with trace := s.trace ++ [.response (.ok (.bool false))] }

/-- isNegative is true exactly when the word, read as two's complement, is below zero; its R is that of
extractBits(63, 63, w); the corner cases of the spec (spec/43_sign_test.md R151 and R153, which the spec
marks as derived, and R152). -/
def Obligations.IsNegativeAgreesWithTheSignedReading : Prop :=
  ∀ (s : State) (w : Word),
    (∃ (b : Bool) (r : Word), Replies (.isNegative w) s (.ok (.bool b)) ∧
      Replies (.extractBits 63 63 w) s (.ok (.word r)) ∧ (Value.bool b).toR = r ∧ (b = true ↔ r = 1#64) ∧
      (b = true ↔ (if w.getLsbD 63 then (w.toNat : Int) - 2 ^ 64 else (w.toNat : Int)) < 0) ∧
      Replies (.isNegative (w &&& 0x8000000000000000#64)) s (.ok (.bool b))) ∧
    Replies (.isNegative 0#64) s (.ok (.bool false)) ∧
    Replies (.isNegative 0x8000000000000000#64) s (.ok (.bool true)) ∧
    Replies (.isNegative 0x7FFFFFFFFFFFFFFF#64) s (.ok (.bool false)) ∧
    Replies (.isNegative 0xFFFFFFFFFFFFFFFF#64) s (.ok (.bool true))

/-- The eight operations that do not write BUF change nothing but the host's record, by exactly one response: every element
reads as before (spec/10_state.md R26, which the spec marks as derived). -/
def Obligations.WordOperationsTouchNothing : Prop :=
  ∀ (i : Instr) (s : State), neverWrites i = true →
    ∃ r : Response, RepliesWriting i s r (fun a => s.buf.read a)

/-! ## renderBits and clearBuffer -/

/-- renderBits: its encoding, elements 0..71 as the pseudocode writes them, every other element as before, R = 0, no fault,
and nothing else changed; and the spec's example, the 71 characters and the terminator, on an instance with the default
character codes (spec/44_bitstring_buffer.md R160, R171). -/
def Obligations.RenderBitsWritesTheBitString : Prop :=
  ∀ (s : State) (word : Word),
    (∀ a b : Byte, decode (mkCommand 0x09#8 a b word) = .ok (.renderBits word)) ∧ Value.none.toR = 0#64 ∧
    ∃ t, exec (.renderBits word) s = .next t ∧ t.trace = s.trace ++ [.response (.ok .none)] ∧
      t.cfg = s.cfg ∧ t.moves = s.moves ∧ t.draws = s.draws ∧
      (∀ i, i ≤ 70 → i % 9 = 8 → t.buf.read i = some s.cfg.chSpace) ∧
      (∀ g p, g ≤ 7 → p ≤ 7 → t.buf.read (9 * g + p) =
        some (if word.getLsbD (63 - (8 * g + p)) then s.cfg.chOne else s.cfg.chZero)) ∧
      t.buf.read 71 = some s.cfg.chTerm ∧
      (∀ a, 72 ≤ a → t.buf.read a = s.buf.read a) ∧
      decode 0x090000AABBCCDDEE001122#88 = .ok (.renderBits 0xAABBCCDDEE001122#64) ∧
      (word = 0xAABBCCDDEE001122#64 → s.cfg = Config.default → (List.range 72).map (fun i => t.buf.read i) =
        ("10101010 10111011 11001100 11011101 11101110 00000000 00010001 00100010".toList.map
          fun c => some (BitVec.ofNat 8 c.toNat)) ++ [some 0x00#8])

/-- The index map: the digit of bit k is at (63 - k) + floor((63 - k) / 8), the seven spaces and the terminator where the
table has them, these are all the indices 0..71, and every element at 72 or above is as before (spec/44_bitstring_buffer.md R161,
which the spec marks as derived). -/
def Obligations.RenderBitsFollowsTheIndexMap : Prop :=
  ∀ (s : State) (word : Word), ∃ t, exec (.renderBits word) s = .next t ∧
    ShowsWord s.cfg word (fun a => t.buf.read a) ∧
    (∀ a, a ≤ 71 → a = 71 ∨ a ∈ spaceIndices ∨ ∃ k, k < 64 ∧ digitIndex k = a) ∧
    (∀ a, 72 ≤ a → t.buf.read a = s.buf.read a) ∧
    digitIndex 63 = 0 ∧ digitIndex 56 = 7 ∧ digitIndex 55 = 9 ∧ digitIndex 0 = 70

/-- The shape of the bit-string, for every word: 64 digits, 7 spaces and one terminator, each code only where it belongs
(spec/44_bitstring_buffer.md R162). The codes are pairwise distinct, as R10 asks. -/
def Obligations.BitStringHasItsShape : Prop :=
  ∀ (s : State) (word : Word), s.cfg.legal → ∃ t, exec (.renderBits word) s = .next t ∧
    (∀ i, i ≤ 70 → (t.buf.read i = some s.cfg.chSpace ↔ i ∈ spaceIndices)) ∧
    (∀ i, i ≤ 70 → i ∉ spaceIndices → t.buf.read i = some s.cfg.chZero ∨ t.buf.read i = some s.cfg.chOne) ∧
    (∀ i, i ≤ 70 → t.buf.read i ≠ some s.cfg.chTerm) ∧ t.buf.read 71 = some s.cfg.chTerm ∧
    ((List.range 71).filter fun i => t.buf.read i == some s.cfg.chSpace).length = 7 ∧
    ((List.range 71).filter fun i => t.buf.read i == some s.cfg.chZero || t.buf.read i == some s.cfg.chOne).length = 64 ∧
    (word = 0#64 → ∀ i, i ≤ 70 → i ∉ spaceIndices → t.buf.read i = some s.cfg.chZero)

/-- The corner cases of renderBits: the four words of the spec, every element 0..71 defined and a function of the word alone
whatever was there, the elements above kept (spec/44_bitstring_buffer.md R164, which the spec marks as derived). -/
def Obligations.RenderBitsCornerCases : Prop :=
  (∀ (s : State) (k : Nat), k < 64 → ∃ t₀ t₁ t₂ t₃,
    exec (.renderBits 0#64) s = .next t₀ ∧ t₀.buf.read (digitIndex k) = some s.cfg.chZero ∧
    exec (.renderBits 0xFFFFFFFFFFFFFFFF#64) s = .next t₁ ∧ t₁.buf.read (digitIndex k) = some s.cfg.chOne ∧
    exec (.renderBits 0x8000000000000000#64) s = .next t₂ ∧
    t₂.buf.read (digitIndex k) = some (if k = 63 then s.cfg.chOne else s.cfg.chZero) ∧
    exec (.renderBits 0x0000000000000001#64) s = .next t₃ ∧
    t₃.buf.read (digitIndex k) = some (if k = 0 then s.cfg.chOne else s.cfg.chZero)) ∧
  (∀ (s u : State) (word : Word), s.cfg = u.cfg → ∃ t v,
    exec (.renderBits word) s = .next t ∧ exec (.renderBits word) u = .next v ∧
    (∀ a, a ≤ 71 → t.buf.read a = v.buf.read a ∧ ∃ e, t.buf.read a = some e) ∧
    (∀ a, 72 ≤ a → t.buf.read a = s.buf.read a))

/-- The string determines the word, and two different words give strings that differ at a digit index and nowhere else
(spec/44_bitstring_buffer.md R165, which the spec marks as derived). -/
def Obligations.BitStringDeterminesTheWord : Prop :=
  ∀ (s : State) (v w : Word), s.cfg.legal → ∃ t u,
    exec (.renderBits v) s = .next t ∧ exec (.renderBits w) s = .next u ∧
    (∀ k, k < 64 → (v.getLsbD k = true ↔ t.buf.read (digitIndex k) = some s.cfg.chOne)) ∧
    (v ≠ w → ∃ k, k < 64 ∧ t.buf.read (digitIndex k) ≠ u.buf.read (digitIndex k)) ∧
    (∀ i, i ∈ spaceIndices ∨ i = 71 → t.buf.read i = u.buf.read i)

/-- clearBuffer: its encoding, its fault, elements 0..size-1 zero and every other element as before, R = 0, and nothing
else changed, with the spec's example (spec/44_bitstring_buffer.md R166). -/
def Obligations.ClearBufferZeroesThePrefix : Prop :=
  (∀ (a b : Byte) (w : Word), decode (mkCommand 0x0A#8 a b w) = .ok (.clearBuffer a.toInt)) ∧ Value.none.toR = 0#64 ∧
  (∀ (s : State) (size : Int), ¬ (0 ≤ size ∧ size ≤ (s.cfg.buflen : Int)) →
    exec (.clearBuffer size) s = .next { s with trace := s.trace ++ [.response (.fault .invalidArgument)] }) ∧
  (∀ (s : State) (size : Nat), size ≤ s.cfg.buflen → ∃ t, exec (.clearBuffer size) s = .next t ∧
    t.trace = s.trace ++ [.response (.ok .none)] ∧ t.cfg = s.cfg ∧ t.moves = s.moves ∧ t.draws = s.draws ∧
    (∀ a, a < size → t.buf.read a = some 0x00#8) ∧ (∀ a, size ≤ a → t.buf.read a = s.buf.read a)) ∧
  decode 0x0A09000000000000000000#88 = .ok (.clearBuffer 9) ∧
  (∀ s : State, s.cfg.legal → ∃ t u, exec (.renderBits 0xAABBCCDDEE001122#64) s = .next t ∧
    exec (.clearBuffer 9) t = .next u ∧ (∀ a, a ≤ 8 → u.buf.read a = some 0x00#8) ∧
    (∀ a, 9 ≤ a → u.buf.read a = t.buf.read a) ∧ u.buf.read 71 = some s.cfg.chTerm)

/-- The corner cases of clearBuffer: size 0 writes nothing, BUFLEN zeroes all, BUFLEN + 1, -1, -128 and, at BUFLEN = 72,
127 fault, and what is cleared is defined, whatever CH_TERM is (spec/44_bitstring_buffer.md R167, which the spec marks as derived). -/
def Obligations.ClearBufferCornerCases : Prop :=
  ∀ s : State, s.cfg.legal →
    RepliesWriting (.clearBuffer 0) s (.ok .none) (fun a => s.buf.read a) ∧
    RepliesWriting (.clearBuffer s.cfg.buflen) s (.ok .none)
      (fun a => if a < s.cfg.buflen then some 0x00#8 else s.buf.read a) ∧
    Replies (.clearBuffer (s.cfg.buflen + 1 : Nat)) s (.fault .invalidArgument) ∧
    Replies (.clearBuffer (-1)) s (.fault .invalidArgument) ∧
    Replies (.clearBuffer (-128)) s (.fault .invalidArgument) ∧
    (s.cfg.buflen = 72 → Replies (.clearBuffer 127) s (.fault .invalidArgument)) ∧
    (∀ n : Nat, n ≤ s.cfg.buflen → ∃ t u, exec (.clearBuffer n) s = .next t ∧ exec (.clearBuffer n) t = .next u ∧
      (∀ a, a < n → t.buf.read a = some 0x00#8) ∧ (∀ a, u.buf.read a = t.buf.read a))

/-- A host read returns the last value written and changes nothing in BUF; writing the same value twice, and running the same
buffer operation twice, is the same as once (spec/20_memory.md R54, which the spec marks as derived). -/
def Obligations.AccessesHaveNoSideEffects : Prop :=
  (∀ (s : State) (i : Nat) (v : Byte), i < s.cfg.buflen → ∃ t u x,
    hostWrite i v s = .next t ∧ hostWrite i v t = .next u ∧ (∀ a, u.buf.read a = t.buf.read a) ∧
    hostRead i t = .next x ∧ x.trace = t.trace ++ [.read i v] ∧ (∀ a, x.buf.read a = t.buf.read a)) ∧
  (∀ (s : State) (word : Word), ∃ t u, exec (.renderBits word) s = .next t ∧ exec (.renderBits word) t = .next u ∧
    ∀ a, u.buf.read a = t.buf.read a) ∧
  (∀ (s : State) (size : Int), ∃ t u, exec (.clearBuffer size) s = .next t ∧ exec (.clearBuffer size) t = .next u ∧
    ∀ a, u.buf.read a = t.buf.read a)

/-- No command touches an element at or above BUFLEN (spec/20_memory.md R40, which the spec marks as derived). -/
def Obligations.CommandsFormNoMissingIndex : Prop :=
  ∀ (s : State) (c : Command), s.cfg.legal → ∃ t, transact c s = .next t ∧
    (∀ a, s.cfg.buflen ≤ a → t.buf.read a = s.buf.read a) ∧
    (s.buf.below s.cfg.buflen = true → t.buf.below s.cfg.buflen = true)

/-! ## Faults -/

/-- InvalidArgument is raised exactly where the table says, by the decoded integers and by the 8-bit fields read unsigned,
one code whichever and however many parts fail (spec/60_exceptions.md R183, R184). -/
def Obligations.InvalidArgumentExactlyOnTheTable : Prop :=
  (∀ (i : Instr) (s : State),
    (Violates s.cfg i → Replies i s (.fault .invalidArgument)) ∧
    (¬ Violates s.cfg i → ∃ (t : State) (v : Value), exec i s = .next t ∧ t.trace = s.trace ++ [.response (.ok v)])) ∧
  (∀ (cfg : Config) (c : Command) (i : Instr), cfg.legal → decode c = .ok i →
    (Violates cfg i ↔
      (opField c = 0x01#8 ∨ opField c = 0x02#8 ∨ opField c = 0x03#8) ∧
        ((bField c).toNat < (aField c).toNat ∨ 0x3F < (bField c).toNat) ∨
      opField c = 0x04#8 ∧ (0x3F < (aField c).toNat ∨ 0x01 < (bField c).toNat) ∨
      (opField c = 0x05#8 ∨ opField c = 0x06#8) ∧ 0x07 < (aField c).toNat ∨
      opField c = 0x0A#8 ∧ cfg.buflen < (aField c).toNat))

/-- The order of tests: a reserved OP answers IllegalCommand; on any other OP, and only then, the precondition of the operation it
names is tested; only where it holds does the operation execute. No two of the three outcomes go together
(spec/60_exceptions.md R187). -/
def Obligations.OpcodeIsTestedFirst : Prop :=
  ∀ (s : State) (c : Command) (rest : List HostMove), s.moves = .present c :: rest →
    ((opField c).toNat = 0 ∨ 0x0B ≤ (opField c).toNat) ∧
      step s = .next { s with moves := rest, trace := s.trace ++ [.response (.fault .illegalCommand)] } ∨
    (1 ≤ (opField c).toNat ∧ (opField c).toNat ≤ 0x0A ∧ ∃ i, decode c = .ok i ∧ i.op = opField c ∧ Violates s.cfg i ∧
      step s = .next { s with moves := rest, trace := s.trace ++ [.response (.fault .invalidArgument)] }) ∨
    (1 ≤ (opField c).toNat ∧ (opField c).toNat ≤ 0x0A ∧ ∃ i t v, decode c = .ok i ∧ i.op = opField c ∧
      ¬ Violates s.cfg i ∧ step s = .next t ∧ t.moves = rest ∧
      t.trace = s.trace ++ [.response (.ok v)])

/-- A faulting command writes no element, returns no result and changes nothing (spec/60_exceptions.md R185). -/
def Obligations.FaultingCommandHasNoEffect : Prop :=
  ∀ (s t : State) (c : Command) (code : FaultCode),
    transact c s = .next t → t.trace = s.trace ++ [.response (.fault code)] →
    t = { s with trace := s.trace ++ [.response (.fault code)] } ∧ (∀ a, t.buf.read a = s.buf.read a) ∧
    (Response.fault code).r = none

/-- After a faulting transaction the unit executes the next command as it would have without it
(spec/60_exceptions.md R189). -/
def Obligations.NextCommandAfterAFaultRunsNormally : Prop :=
  ∀ (s t : State) (bad c : Command) (code : FaultCode),
    transact bad s = .next t → t.trace = s.trace ++ [.response (.fault code)] →
    ∃ (r : Response) (content : Nat → Option Byte), TransactsWriting c s r content ∧ TransactsWriting c t r content

/-- buildWord, isNegative and renderBits always return OK, putByte cannot fault on byteVal, and no operation on word
(spec/60_exceptions.md R191, which the spec marks as derived). -/
def Obligations.OperationsThatNeverFault : Prop :=
  (∀ (s : State) (b0 b1 b2 b3 b4 b5 b6 b7 : Byte) (word : Word), ∃ t u x v₀ v₁ v₂,
    exec (.buildWord b0 b1 b2 b3 b4 b5 b6 b7) s = .next t ∧ t.trace = s.trace ++ [.response (.ok v₀)] ∧
    exec (.isNegative word) s = .next u ∧ u.trace = s.trace ++ [.response (.ok v₁)] ∧
    exec (.renderBits word) s = .next x ∧ x.trace = s.trace ++ [.response (.ok v₂)]) ∧
  (∀ (s : State) (x y : Int) (b b' : Byte) (w w' : Word) (code : FaultCode),
    (Replies (.extractBits x y w) s (.fault code) → Replies (.extractBits x y w') s (.fault code)) ∧
    (Replies (.setBitRange x y w) s (.fault code) → Replies (.setBitRange x y w') s (.fault code)) ∧
    (Replies (.clearBitRange x y w) s (.fault code) → Replies (.clearBitRange x y w') s (.fault code)) ∧
    (Replies (.assignBit x y w) s (.fault code) → Replies (.assignBit x y w') s (.fault code)) ∧
    (Replies (.getByte x w) s (.fault code) → Replies (.getByte x w') s (.fault code)) ∧
    (Replies (.putByte x b w) s (.fault code) → Replies (.putByte x b' w') s (.fault code)))

/-! ## The system -/

/-- Every command presented gets a response in its own transaction, and no other move is consumed
(spec/70_reset_and_hazards.md R225, which the spec marks as derived). -/
def Obligations.EveryCommandGetsAResponse : Prop :=
  ∀ (s : State) (c : Command) (rest : List HostMove), s.moves = .present c :: rest →
    ∃ (t : State) (r : Response), step s = .next t ∧ t.trace = s.trace ++ [.response r] ∧ t.moves = rest

/-- The unit is stateless: the response and what is written are fixed by the command word and the instance's parameters; BUF
is never read, and for the eight word operations it comes back unchanged (spec/10_state.md R20). -/
def Obligations.UnitIsAFunctionOfItsCommand : Prop :=
  ∀ (cfg : Config) (c : Command), ∃ (r : Response) (written : Nat → Option Byte),
    (∀ s : State, s.cfg = cfg → TransactsWriting c s r (fun a => (written a).or (s.buf.read a))) ∧
    (∀ i, decode c = .ok i → neverWrites i = true → ∀ a, written a = none)

/-- Two commands can be reordered without changing either response, and reordering changes the final BUF only when both
write BUF (spec/70_reset_and_hazards.md R220, which the spec marks as derived). -/
def Obligations.CommandsCanBeReordered : Prop :=
  ∀ (s : State) (c d : Command) (rest : List HostMove), ∃ (q r : Response) (t u : State),
    Host.Core.run Sys2Proof.core 2 { s with moves := .present c :: .present d :: rest } = .next t ∧
    Host.Core.run Sys2Proof.core 2 { s with moves := .present d :: .present c :: rest } = .next u ∧
    t.trace = s.trace ++ [.response q, .response r] ∧ u.trace = s.trace ++ [.response r, .response q] ∧
    (writtenBy s.cfg c = 0 ∨ writtenBy s.cfg d = 0 → ∀ a, t.buf.read a = u.buf.read a)

/-- The reset event: every element is unspecified afterwards, written before or not, a command that was executing returns no
response, and the parameters stay. That the moves to come, the host's record and the draw count stay is the model's choice
(log 11). -/
def Obligations.ResetLeavesBufUnspecified : Prop :=
  ∀ (s : State) (executing : Option Command) (rest : List HostMove), s.moves = .reset executing :: rest →
    ∃ t, step s = .next t ∧ (∀ a, t.buf.read a = none) ∧ t.trace = s.trace ∧ t.cfg = s.cfg ∧ t.moves = rest ∧
      t.draws = s.draws

/-- A host read of an element with no defined value gives some 8-bit value and leaves the element without one (spec/10_state.md
R27); that the value is a free one and the read goes on is the model's choice (log 4), and so is the count of the draws
(log 6). -/
def Obligations.HostReadOfAnUnwrittenElementGoesOn : Prop :=
  ∀ (s : State) (i : Nat) (rest : List HostMove), s.moves = .read i :: rest → i < s.cfg.buflen →
    s.buf.read i = none → ∃ (t : State) (v : Byte), step s = .next t ∧ t.trace = s.trace ++ [.read i v] ∧
      t.cfg = s.cfg ∧ t.moves = rest ∧ (∀ a, t.buf.read a = s.buf.read a) ∧ t.draws = s.draws + 1

/-- The unit never halts and never refuses a further command (spec/70_reset_and_hazards.md R224). The machine stops only where
the host names an element that does not exist, which is the model's choice (log 8), and a step with no move left gives the same
state, which is the model's choice too (log 10). -/
def Obligations.StepStopsOnlyOnAMissingElement : Prop :=
  ∀ s : State,
    (s.moves = [] → step s = .next s) ∧
    (∀ m rest, s.moves = m :: rest →
      (m.inRange s.cfg.buflen → ∃ t, step s = .next t ∧ t.moves = rest) ∧
      (¬ m.inRange s.cfg.buflen → ∃ i, s.cfg.buflen ≤ i ∧ step s = .fault (.noSuchElement i)))

/-- The mark of a faulted run is never cleared (spec/60_exceptions.md R189), and no step changes a parameter (spec/10_state.md
R28). That the mark is read off the host's record, which only grows, by at most one event a step, is the model's choice (log 5),
and so is that the record outlives a reset (log 11). -/
def Obligations.RecordOnlyGrows : Prop :=
  ∀ s t : State, step s = .next t →
    t.cfg = s.cfg ∧ (t.trace = s.trace ∨ ∃ e, t.trace = s.trace ++ [e]) ∧ (s.faulted = true → t.faulted = true)

/-- Every step keeps the invariant: a legal instance (spec/00_scope.md R10), no element that does not exist (spec/20_memory.md R40),
and the model's own canonical form of BUF. -/
def Obligations.StepKeepsTheInvariant : Prop :=
  ∀ s t : State, s.inv → step s = .next t → t.inv

/-- The consistency model, over every run of moves that name existing elements: the run goes through, each element holds the
value of the latest write to it (a command's writes at the point of its transaction), a host read returns that value, and each
command and each read returned exactly one event (spec/20_memory.md R49). Only writes since the latest reset count
(spec/70_reset_and_hazards.md R211). The model's choices in it: one move a step (log 1), the moves and the record outlive a reset
among the moves (log 11), and a read of an element with no value goes on with some value (log 4). -/
def Obligations.RunsAreSequentiallyConsistent : Prop :=
  ∀ (s : State) (ms rest : List HostMove), s.moves = ms ++ rest → (∀ m ∈ ms, m.inRange s.cfg.buflen) →
    ∃ t : State, Host.Core.run Sys2Proof.core ms.length s = .next t ∧ t.moves = rest ∧ t.cfg = s.cfg ∧
      (∀ a, t.buf.read a = latestWrite s.cfg ms a (s.buf.read a)) ∧
      t.trace.length = s.trace.length + (ms.countP HostMove.returns) ∧
      (∀ i later v, rest = .read i :: later → i < s.cfg.buflen → latestWrite s.cfg ms i (s.buf.read i) = some v →
        ∃ u, step t = .next u ∧ u.trace = t.trace ++ [.read i v] ∧ u.moves = later) ∧
      (∀ i later, rest = .read i :: later → i < s.cfg.buflen → latestWrite s.cfg ms i (s.buf.read i) = none →
        ∃ u v, step t = .next u ∧ u.trace = t.trace ++ [.read i v] ∧ u.moves = later)

/-! ## The assembler -/

/-- Lines and their command words: a small operand is its low 8 bits, so -1 and 255 are one encoding, and a comment is dropped;
and three lines that are refused, two for an operand out of range and one for its name (spec/30_encoding.md R70, R71; the
lexical conventions are the model's, log 17). -/
def Obligations.AssemblerEncodesTheSpecsLines : Prop :=
  assembleLine "extractBits(62, 63, 0xabcdef0123456789) ; BM scenario 1".toList = .ok 0x013E3FABCDEF0123456789#88 ∧
  assembleLine "buildWord(0xf0,0xf0,0xf0,0,0,0,0,0)".toList = .ok 0x0700000000000000F0F0F0#88 ∧
  assembleLine "clearBuffer(72)".toList = .ok 0x0A48000000000000000000#88 ∧
  assembleLine "assignBit(3, -1, 0x0123456789abcdef)".toList = .ok 0x0403FF0123456789ABCDEF#88 ∧
  assembleLine "assignBit(3, 255, 0x0123456789abcdef)".toList = .ok 0x0403FF0123456789ABCDEF#88 ∧
  assembleLine "clearBuffer(256)".toList = .error .badOperands ∧
  assembleLine "isNegative(18446744073709551616)".toList = .error .badOperands ∧
  assembleLine "nop(0)".toList = .error (.unknownMnemonic "nop")

/-- Every line that assembles is the canonical word of one command, the text after `;` does not count, a line with no call in it
is refused, only the ten names are names, and an operand outside the range of its kind is refused (spec/30_encoding.md R69, R70,
R71). That the digits of a hexadecimal operand are counted, and that a line without a call is refused, is the model's choice
(log 17). -/
def Obligations.AssemblerAcceptsOnlyCanonicalCommands : Prop :=
  (∀ (line : List Char) (c : Command), assembleLine line = .ok c → ∃ i : Instr, decode c = .ok i ∧ encode i = c) ∧
  (∀ line comment : List Char, ';' ∉ line → assembleLine (line ++ ';' :: comment) = assembleLine line) ∧
  (∀ line : List Char, '(' ∉ line → assembleLine line = .error .notACall) ∧
  (∀ (name : String) (ops : List Numeral), call? name ops ≠ none ↔
    name ∈ ["extractBits", "setBitRange", "clearBitRange", "assignBit", "getByte", "putByte", "buildWord", "isNegative",
      "renderBits", "clearBuffer"]) ∧
  (∀ v : Int, (smallOperand? (.dec v) = none ↔ v < -128 ∨ 255 < v) ∧
    (byteOperand? (.dec v) = none ↔ v < -128 ∨ 255 < v) ∧
    (wordOperand? (.dec v) = none ↔ v < 0 ∨ 2 ^ 64 ≤ v)) ∧
  (∀ n v : Nat, (smallOperand? (.hex n v) = none ↔ 2 < n) ∧ (byteOperand? (.hex n v) = none ↔ 2 < n) ∧
    (wordOperand? (.hex n v) = none ↔ 16 < n))
end

