-- ==== Sys2Proof/Laws/Assembler.lean ====
section
/-! SUPPORT. What the assembler can answer (spec/30_encoding.md R70). -/

namespace Sys2Proof.Machine

theorem trim_subset {cs : List Char} {c : Char} (h : c ∈ trim cs) : c ∈ cs :=
  (List.dropWhile_sublist _).subset <|
    List.mem_reverse.1 <| (List.dropWhile_sublist _).subset <| List.mem_reverse.1 h

/-- A line that assembles is one call of an operation, and its word is the canonical encoding of that call. -/
theorem assembleLine_ok {line : List Char} {c : Command} (h : assembleLine line = .ok c) :
    ∃ (name : String) (ops : List Numeral) (i : Instr), call? name ops = some (some i) ∧ c = encode i := by
  simp only [assembleLine] at h
  split at h
  · split at h
    · split at h
      · cases h
      · split at h
        · cases h
        · cases h
        · next ops _ _ i hc => cases h; exact ⟨_, ops, i, hc, rfl⟩
    · cases h
  · cases h

end Sys2Proof.Machine
end

