-- ==== Sys2Proof/Laws/Memory.lean ====
section
/-! SUPPORT. What a write to BUF does to every read, and that every write keeps the canonical form. -/

namespace Sys2Proof.Machine

@[simp] theorem Memory.read_nil (i : Nat) : Memory.read [] i = none := rfl

/-- All that one write does to a read: the written element reads as written, every other element as before. -/
theorem Memory.read_write (m : Memory) (i a : Nat) (v : Byte) :
    (m.write i v).read a = if i = a then some v else m.read a := by
  induction m with
  | nil => simp only [Memory.write, Memory.read]
  | cons cell rest ih =>
    obtain ⟨j, w⟩ := cell
    simp only [Memory.write]
    split
    · simp only [Memory.read]
    · split
      · next h => subst h; simp only [Memory.read]; split <;> rfl
      · next h =>
        simp only [Memory.read, ih]
        by_cases hj : j = a
        · subst hj; simp [h]
        · simp [hj]

@[simp] theorem Memory.read_write_same (m : Memory) (i : Nat) (v : Byte) :
    (m.write i v).read i = some v := by rw [Memory.read_write, if_pos rfl]

theorem Memory.read_write_ne {m : Memory} {i a : Nat} (v : Byte) (h : i ≠ a) :
    (m.write i v).read a = m.read a := by rw [Memory.read_write, if_neg h]

@[simp] theorem Memory.writePrefix_zero (m : Memory) (f : Nat → Byte) : m.writePrefix 0 f = m := rfl

theorem Memory.writePrefix_succ (m : Memory) (n : Nat) (f : Nat → Byte) :
    m.writePrefix (n + 1) f = (m.writePrefix n f).write n (f n) := by
  simp [Memory.writePrefix, List.range_succ]

/-- All that a prefix write does to a read: elements 0..n-1 read as written, every other element as before. -/
theorem Memory.read_writePrefix (m : Memory) (n a : Nat) (f : Nat → Byte) :
    (m.writePrefix n f).read a = if a < n then some (f a) else m.read a := by
  induction n with
  | zero => simp
  | succ n ih =>
    rw [Memory.writePrefix_succ, Memory.read_write, ih]
    by_cases h : n = a
    · subst h; simp
    · simp only [h, if_false]
      by_cases h' : a < n
      · simp [h', Nat.lt_succ_of_lt h']
      · rw [if_neg h', if_neg (by omega)]

/-- A list that starts with an entry is canonical where its rest is and every index of the rest is above the first. -/
theorem Memory.wf_cons {i : Nat} {v : Byte} {m : Memory} :
    Memory.wf ((i, v) :: m) = true ↔ (∀ c ∈ m.head?, i < c.1) ∧ Memory.wf m = true := by
  cases m with
  | nil => simp [Memory.wf]
  | cons cell rest => obtain ⟨j, w⟩ := cell; simp [Memory.wf]

/-- The first index after a write is the written one or the first of before. -/
theorem Memory.head_write (m : Memory) (i : Nat) (v : Byte) :
    ∀ c ∈ (m.write i v).head?, c.1 = i ∨ ∃ d ∈ m.head?, c.1 = d.1 := by
  cases m with
  | nil => simp [Memory.write]
  | cons cell rest =>
    obtain ⟨j, w⟩ := cell
    simp only [Memory.write]
    split <;> (try split) <;> simp

/-- A write keeps the canonical form. -/
theorem Memory.wf_write {m : Memory} (i : Nat) (v : Byte) (h : m.wf = true) : (m.write i v).wf = true := by
  induction m with
  | nil => rfl
  | cons cell rest ih =>
    obtain ⟨j, w⟩ := cell
    have hr := Memory.wf_cons.mp h
    simp only [Memory.write]
    split
    · next hlt => exact Memory.wf_cons.mpr ⟨by simpa using hlt, h⟩
    · next hge =>
      split
      · next heq => subst heq; exact Memory.wf_cons.mpr hr
      · next hne =>
        refine Memory.wf_cons.mpr ⟨fun c hc => ?_, ih hr.2⟩
        rcases Memory.head_write rest i v c hc with hi | ⟨d, hd, hcd⟩
        · omega
        · rw [hcd]; exact hr.1 d hd

/-- A prefix write keeps the canonical form. -/
theorem Memory.wf_writePrefix {m : Memory} (n : Nat) (f : Nat → Byte) (h : m.wf = true) :
    (m.writePrefix n f).wf = true := by
  induction n with
  | zero => exact h
  | succ n ih => rw [Memory.writePrefix_succ]; exact Memory.wf_write _ _ ih

/-- A write to an existing element lists no missing one. -/
theorem Memory.below_write {m : Memory} {i n : Nat} (v : Byte) (hi : i < n) (h : m.below n = true) :
    (m.write i v).below n = true := by
  induction m with
  | nil => simp [Memory.write, Memory.below, hi]
  | cons cell rest ih =>
    obtain ⟨j, w⟩ := cell
    simp only [Memory.below, List.all_cons, Bool.and_eq_true, decide_eq_true_eq] at h ih ⊢
    simp only [Memory.write]
    split
    · simp [hi, h]
    · split
      · simp [hi, h]
      · simp [h.1, ih h.2]

/-- A prefix write within the buffer lists no missing element. -/
theorem Memory.below_writePrefix {m : Memory} {k n : Nat} (f : Nat → Byte) (hk : k ≤ n) (h : m.below n = true) :
    (m.writePrefix k f).below n = true := by
  induction k with
  | zero => exact h
  | succ k ih => rw [Memory.writePrefix_succ]; exact Memory.below_write _ (by omega) (ih (by omega))

/-- The buffer after reset is in canonical form and lists nothing. -/
theorem Memory.wf_reset : State.reset.buf.wf = true := rfl

end Sys2Proof.Machine
end

