-- ==== Sys2Proof/Laws/Operands.lean ====
section
/-! SUPPORT. When each operand is in its domain, and what the machine then works with. -/

namespace Sys2Proof.Machine

theorem bitRange?_of_ok {low high : Int} (h0 : 0 ≤ low) (h1 : low ≤ high) (h2 : high ≤ 63) :
    ∃ r, bitRange? low high = some r ∧ r.low.val = low.toNat ∧ r.high.val = high.toNat := by
  refine ⟨_, dif_pos ⟨h0, h1, h2⟩, rfl, rfl⟩

theorem bitRange?_eq_none {low high : Int} (h : ¬ (0 ≤ low ∧ low ≤ high ∧ high ≤ 63)) :
    bitRange? low high = none := dif_neg h

theorem bitPos?_of_ok {n : Int} (h0 : 0 ≤ n) (h1 : n ≤ 63) :
    ∃ p, bitPos? n = some p ∧ p.val = n.toNat := ⟨_, dif_pos ⟨h0, h1⟩, rfl⟩

theorem bitPos?_eq_none {n : Int} (h : ¬ (0 ≤ n ∧ n ≤ 63)) : bitPos? n = none := dif_neg h

@[simp] theorem bitVal?_zero : bitVal? 0 = some false := rfl
@[simp] theorem bitVal?_one : bitVal? 1 = some true := rfl

theorem bitVal?_eq_none {v : Int} (h : ¬ (v = 0 ∨ v = 1)) : bitVal? v = none := by
  rw [not_or] at h; simp [bitVal?, h.1, h.2]

theorem bitAssignment?_of_ok {n v : Int} (h0 : 0 ≤ n) (h1 : n ≤ 63) (hv : v = 0 ∨ v = 1) :
    ∃ p, bitAssignment? n v = some (p, decide (v = 1)) ∧ p.val = n.toNat := by
  obtain ⟨p, hp, hpn⟩ := bitPos?_of_ok h0 h1
  refine ⟨p, ?_, hpn⟩
  rcases hv with rfl | rfl <;> simp [bitAssignment?, hp]

theorem bitAssignment?_eq_none {n v : Int} (h : ¬ (0 ≤ n ∧ n ≤ 63) ∨ ¬ (v = 0 ∨ v = 1)) :
    bitAssignment? n v = none := by
  rcases h with h | h
  · simp [bitAssignment?, bitPos?_eq_none h]
  · rw [bitAssignment?, bitVal?_eq_none h]; cases bitPos? n <;> rfl

theorem byteIndex?_of_ok {k : Int} (h0 : 0 ≤ k) (h1 : k ≤ 7) :
    ∃ p, byteIndex? k = some p ∧ p.val = k.toNat := ⟨_, dif_pos ⟨h0, h1⟩, rfl⟩

theorem byteIndex?_eq_none {k : Int} (h : ¬ (0 ≤ k ∧ k ≤ 7)) : byteIndex? k = none := dif_neg h

theorem bufSize?_of_ok {cfg : Config} {n : Int} (h0 : 0 ≤ n) (h1 : n ≤ (cfg.buflen : Int)) :
    bufSize? cfg n = some n.toNat := if_pos ⟨h0, h1⟩

theorem bufSize?_eq_none {cfg : Config} {n : Int} (h : ¬ (0 ≤ n ∧ n ≤ (cfg.buflen : Int))) :
    bufSize? cfg n = none := if_neg h

/-- A size that passes is at most BUFLEN. -/
theorem bufSize?_le {cfg : Config} {n : Int} {k : Nat} (h : bufSize? cfg n = some k) : k ≤ cfg.buflen := by
  unfold bufSize? at h
  split at h
  · cases h; omega
  · cases h

end Sys2Proof.Machine
end

