-- ==== Sys2Proof/Laws/State.lean ====
section
/-! SUPPORT. One lemma per field for each update of State, and what the two ends of a transaction do. -/

namespace Sys2Proof.Machine

@[simp] theorem State.withBuf_cfg (s : State) (m : Memory) : (s.withBuf m).cfg = s.cfg := rfl
@[simp] theorem State.withBuf_buf (s : State) (m : Memory) : (s.withBuf m).buf = m := rfl
@[simp] theorem State.withBuf_moves (s : State) (m : Memory) : (s.withBuf m).moves = s.moves := rfl
@[simp] theorem State.withBuf_trace (s : State) (m : Memory) : (s.withBuf m).trace = s.trace := rfl
@[simp] theorem State.withBuf_draws (s : State) (m : Memory) : (s.withBuf m).draws = s.draws := rfl

@[simp] theorem State.emit_cfg (s : State) (e : Event) : (s.emit e).cfg = s.cfg := rfl
@[simp] theorem State.emit_buf (s : State) (e : Event) : (s.emit e).buf = s.buf := rfl
@[simp] theorem State.emit_moves (s : State) (e : Event) : (s.emit e).moves = s.moves := rfl
@[simp] theorem State.emit_trace (s : State) (e : Event) : (s.emit e).trace = s.trace ++ [e] := rfl
@[simp] theorem State.emit_draws (s : State) (e : Event) : (s.emit e).draws = s.draws := rfl

@[simp] theorem State.answer_cfg (s : State) (v : Value) : (s.answer v).cfg = s.cfg := rfl
@[simp] theorem State.answer_buf (s : State) (v : Value) : (s.answer v).buf = s.buf := rfl
@[simp] theorem State.answer_moves (s : State) (v : Value) : (s.answer v).moves = s.moves := rfl
@[simp] theorem State.answer_trace (s : State) (v : Value) :
    (s.answer v).trace = s.trace ++ [.response (.ok v)] := rfl
@[simp] theorem State.answer_draws (s : State) (v : Value) : (s.answer v).draws = s.draws := rfl

@[simp] theorem State.raise_cfg (s : State) (c : FaultCode) : (s.raise c).cfg = s.cfg := rfl
@[simp] theorem State.raise_buf (s : State) (c : FaultCode) : (s.raise c).buf = s.buf := rfl
@[simp] theorem State.raise_moves (s : State) (c : FaultCode) : (s.raise c).moves = s.moves := rfl
@[simp] theorem State.raise_trace (s : State) (c : FaultCode) :
    (s.raise c).trace = s.trace ++ [.response (.fault c)] := rfl
@[simp] theorem State.raise_draws (s : State) (c : FaultCode) : (s.raise c).draws = s.draws := rfl

/-- All that an operation with a precondition can do. -/
theorem State.checked_cases {α : Type} (s : State) (o : Option α) (f : α → State) :
    (o = none ∧ s.checked o f = .next (s.raise .invalidArgument)) ∨
    (∃ x, o = some x ∧ s.checked o f = .next (f x)) := by
  cases o with
  | none => exact .inl ⟨rfl, rfl⟩
  | some x => exact .inr ⟨x, rfl, rfl⟩

/-- The operands are in their domain: the operation has its result. -/
theorem State.checked_of_eq_some {α : Type} {s : State} {o : Option α} {x : α} (f : α → State)
    (h : o = some x) : s.checked o f = .next (f x) := by rw [h]; rfl

/-- The operands are outside their domain: the operation raises InvalidArgument. -/
theorem State.checked_of_eq_none {α : Type} {s : State} {o : Option α} (f : α → State)
    (h : o = none) : s.checked o f = .next (s.raise .invalidArgument) := by rw [h]; rfl

end Sys2Proof.Machine
end

