-- ==== Sys2Proof/Laws/Buffer.lean ====
section
/-! SUPPORT. Once each: all that the two writes of BUF do, read through the one read of an element. -/

namespace Sys2Proof.Machine

/-- All that renderBits does. -/
theorem execRenderBits_spec (word : Word) (s : State) : ∃ t, execRenderBits word s = .next t ∧
    t.trace = s.trace ++ [.response (.ok .none)] ∧ t.cfg = s.cfg ∧ t.moves = s.moves ∧ t.draws = s.draws ∧
    t.buf = s.buf.writePrefix 72 (bitStringElem s.cfg word) ∧
    ∀ a, t.buf.read a = if a < 72 then some (bitStringElem s.cfg word a) else s.buf.read a := by
  exact ⟨_, rfl, by simp, by simp, by simp, by simp, by simp, fun a => by simp [Memory.read_writePrefix]⟩

/-- All that clearBuffer does with a size in its domain. -/
theorem execClearBuffer_spec (size : Nat) (s : State) (h : size ≤ s.cfg.buflen) :
    ∃ t, execClearBuffer size s = .next t ∧
    t.trace = s.trace ++ [.response (.ok .none)] ∧ t.cfg = s.cfg ∧ t.moves = s.moves ∧ t.draws = s.draws ∧
    t.buf = s.buf.writePrefix size (fun _ => 0x00#8) ∧
    ∀ a, t.buf.read a = if a < size then some 0x00#8 else s.buf.read a := by
  exact ⟨_, State.checked_of_eq_some _ (bufSize?_of_ok (by omega) (by omega)), by simp, by simp, by simp, by simp,
    by simp, fun a => by simp [Memory.read_writePrefix]⟩

/-- What index `9 * g + p` of the bit-string shows: place `p` of group `g`. -/
theorem bitStringElem_digit (cfg : Config) (word : Word) {g p : Nat} (hp : p ≤ 7) :
    bitStringElem cfg word (9 * g + p) = if word.getLsbD (63 - (8 * g + p)) then cfg.chOne else cfg.chZero := by
  rw [bitStringElem, if_neg (by omega), if_neg (by omega), digitBit, show (9 * g + p) / 9 = g by omega,
    show (9 * g + p) % 9 = p by omega]

theorem bitStringElem_space (cfg : Config) (word : Word) {i : Nat} (h : i ≠ 71) (h8 : i % 9 = 8) :
    bitStringElem cfg word i = cfg.chSpace := by rw [bitStringElem, if_neg h, if_pos h8]

theorem bitStringElem_term (cfg : Config) (word : Word) : bitStringElem cfg word 71 = cfg.chTerm := if_pos rfl

end Sys2Proof.Machine
end

