-- ==== Sys2Proof/Laws/Decode.lean ====
section
/-! SUPPORT. The fields of a command word, and the range of what the decoder cuts from it. -/

namespace Sys2Proof

@[simp] theorem opField_mkCommand (op a b : Byte) (w : Word) : opField (mkCommand op a b w) = op := by
  ext i hi
  simp only [opField, mkCommand, BitVec.getElem_extractLsb', BitVec.getLsbD_append]
  rw [if_neg (by omega), if_neg (by omega), if_neg (by omega)]
  rw [show 80 + i - 64 - 8 - 8 = i by omega, BitVec.getLsbD_eq_getElem hi]

@[simp] theorem aField_mkCommand (op a b : Byte) (w : Word) : aField (mkCommand op a b w) = a := by
  ext i hi
  simp only [aField, mkCommand, BitVec.getElem_extractLsb', BitVec.getLsbD_append]
  rw [if_neg (by omega), if_neg (by omega), if_pos (by omega)]
  rw [show 72 + i - 64 - 8 = i by omega, BitVec.getLsbD_eq_getElem hi]

@[simp] theorem bField_mkCommand (op a b : Byte) (w : Word) : bField (mkCommand op a b w) = b := by
  ext i hi
  simp only [bField, mkCommand, BitVec.getElem_extractLsb', BitVec.getLsbD_append]
  rw [if_neg (by omega), if_pos (by omega)]
  rw [show 64 + i - 64 = i by omega, BitVec.getLsbD_eq_getElem hi]

@[simp] theorem wField_mkCommand (op a b : Byte) (w : Word) : wField (mkCommand op a b w) = w := by
  ext i hi
  simp only [wField, mkCommand, BitVec.getElem_extractLsb', BitVec.getLsbD_append]
  rw [if_pos (by omega), Nat.zero_add, BitVec.getLsbD_eq_getElem hi]

/-- A command word is its four fields. -/
theorem mkCommand_fields (c : Command) : mkCommand (opField c) (aField c) (bField c) (wField c) = c := by
  ext i hi
  simp only [mkCommand, opField, aField, bField, wField, ← BitVec.getLsbD_eq_getElem,
    BitVec.getLsbD_append, BitVec.getLsbD_extractLsb']
  split
  · next h => simp [h]
  · split
    · next h => simp [h]; congr 1; omega
    · split
      · next h => simp [h]; congr 1; omega
      · simp only [show i - 64 - 8 - 8 < 8 by omega, decide_true, Bool.true_and]; congr 1; omega

/-- A decoded small operand is in -128..127. -/
theorem smallOk_sext (f : Byte) : smallOk (sext f) = true := by
  have h1 := BitVec.le_toInt f
  have h2 := BitVec.toInt_lt (x := f)
  unfold smallOk sext
  rw [decide_eq_true (by omega), decide_eq_true (by omega)]
  rfl

/-- Encoding a small operand that fits and reading it back gives the operand. -/
theorem sext_smallField {x : Int} (h : smallOk x = true) : sext (smallField x) = x := by
  simp only [smallOk, Bool.and_eq_true, decide_eq_true_eq] at h
  rw [sext, smallField, BitVec.toInt_ofInt]
  exact Int.bmod_eq_of_le (by omega) (by omega)

/-- Reading a field and encoding it again gives the field. -/
@[simp] theorem smallField_sext (f : Byte) : smallField (sext f) = f := BitVec.ofInt_toInt

end Sys2Proof
end

