-- ==== Sys2Proof/Laws/PerInstr.lean ====
section
/-! SUPPORT. Statements about every instruction as syntax, one lemma per constructor. -/

namespace Sys2Proof.Laws

/-- The OP field of an instruction's encoding is its operation code (spec/30_encoding.md R64). -/
def EncodesItsOp.Statement (i : Instr) : Prop := opField (encode i) = i.op

theorem EncodesItsOp.extractBits (low high : Int) (word : Word) :
    EncodesItsOp.Statement (.extractBits low high word) := opField_mkCommand _ _ _ _
theorem EncodesItsOp.setBitRange (low high : Int) (word : Word) :
    EncodesItsOp.Statement (.setBitRange low high word) := opField_mkCommand _ _ _ _
theorem EncodesItsOp.clearBitRange (low high : Int) (word : Word) :
    EncodesItsOp.Statement (.clearBitRange low high word) := opField_mkCommand _ _ _ _
theorem EncodesItsOp.assignBit (bitNum bitVal : Int) (word : Word) :
    EncodesItsOp.Statement (.assignBit bitNum bitVal word) := opField_mkCommand _ _ _ _
theorem EncodesItsOp.getByte (byteIndex : Int) (word : Word) :
    EncodesItsOp.Statement (.getByte byteIndex word) := opField_mkCommand _ _ _ _
theorem EncodesItsOp.putByte (byteIndex : Int) (byteVal : Byte) (word : Word) :
    EncodesItsOp.Statement (.putByte byteIndex byteVal word) := opField_mkCommand _ _ _ _
theorem EncodesItsOp.buildWord (b0 b1 b2 b3 b4 b5 b6 b7 : Byte) :
    EncodesItsOp.Statement (.buildWord b0 b1 b2 b3 b4 b5 b6 b7) := opField_mkCommand _ _ _ _
theorem EncodesItsOp.isNegative (word : Word) :
    EncodesItsOp.Statement (.isNegative word) := opField_mkCommand _ _ _ _
theorem EncodesItsOp.renderBits (word : Word) :
    EncodesItsOp.Statement (.renderBits word) := opField_mkCommand _ _ _ _
theorem EncodesItsOp.clearBuffer (size : Int) :
    EncodesItsOp.Statement (.clearBuffer size) := opField_mkCommand _ _ _ _

end Sys2Proof.Laws
end

