-- ==== Sys2Proof/Laws/Primitives.lean ====
section
/-! SUPPORT. The primitives bit by bit (spec/40_datapath_primitives.md). -/

namespace Sys2Proof.Machine

@[simp] theorem getLsbD_wordAnd (a b : Word) (i : Nat) :
    (wordAnd a b).getLsbD i = (a.getLsbD i && b.getLsbD i) := by simp [wordAnd]

@[simp] theorem getLsbD_wordOr (a b : Word) (i : Nat) :
    (wordOr a b).getLsbD i = (a.getLsbD i || b.getLsbD i) := by simp [wordOr]

@[simp] theorem getLsbD_wordNot (a : Word) (i : Nat) :
    (wordNot a).getLsbD i = (decide (i < 64) && !a.getLsbD i) := by simp [wordNot]

@[simp] theorem getLsbD_shl (v : Word) (n : Fin 64) (i : Nat) :
    (shl v n).getLsbD i = (decide (i < 64) && !decide (i < n.val) && v.getLsbD (i - n.val)) := by
  simp [shl, BitVec.getLsbD_shiftLeft]

@[simp] theorem getLsbD_shr (v : Word) (n : Fin 64) (i : Nat) :
    (shr v n).getLsbD i = v.getLsbD (n.val + i) := by simp [shr, BitVec.getLsbD_ushiftRight]

@[simp] theorem getLsbD_ones (n i : Nat) :
    (ones n).getLsbD i = (decide (i < 64) && decide (i < n)) := by
  simp [ones, BitVec.getLsbD_ofNat, Nat.testBit_two_pow_sub_one]

/-- `2^(high+1) - 2^low` has ones at `low..high` only. -/
theorem testBit_mask (low high i : Nat) (h : low ≤ high) :
    Nat.testBit (2 ^ (high + 1) - 2 ^ low) i = (decide (low ≤ i) && decide (i ≤ high)) := by
  have e : 2 ^ (high + 1) - 2 ^ low = (2 ^ (high + 1 - low) - 1) <<< low := by
    rw [Nat.shiftLeft_eq, Nat.sub_mul, ← Nat.pow_add, Nat.one_mul]
    congr 2; omega
  rw [e, Nat.testBit_shiftLeft, Nat.testBit_two_pow_sub_one]
  by_cases hl : low ≤ i
  · simp only [ge_iff_le, hl, decide_true, Bool.true_and]
    congr 1; simp only [eq_iff_iff]; omega
  · simp [hl]

@[simp] theorem getLsbD_mask (r : BitRange) (i : Nat) :
    (mask r).getLsbD i = (decide (r.low.val ≤ i) && decide (i ≤ r.high.val)) := by
  rw [mask, BitVec.getLsbD_ofNat, testBit_mask _ _ _ r.low_le_high]
  by_cases hi : i < 64
  · simp [hi]
  · have := r.high.isLt
    simp only [hi, decide_false, Bool.false_and]
    rw [decide_eq_false (p := i ≤ r.high.val) (by omega), Bool.and_false]

theorem BitRange.width_pos (r : BitRange) : 1 ≤ r.width := by simp [BitRange.width]

theorem BitRange.width_le (r : BitRange) : r.width ≤ 64 := by
  have := r.high.isLt; simp only [BitRange.width]; omega


end Sys2Proof.Machine
end

