-- ==== Sys2Proof/Laws/Transaction.lean ====
section
/-! SUPPORT. Once each: everything that a host move can do. -/

namespace Sys2Proof.Machine

/-- All that a host read of an existing element can do. -/
theorem hostRead_cases {i : Nat} {s : State} (h : i < s.cfg.buflen) :
    (∃ v, s.buf.read i = some v ∧ hostRead i s = .next (s.emit (.read i v))) ∨
    (s.buf.read i = none ∧
      hostRead i s = .next ({ s with draws := s.draws + 1 }.emit (.read i (Config.unwrittenByte s.draws)))) := by
  unfold hostRead
  rw [if_pos h]
  cases hr : s.buf.read i with
  | none => exact .inr ⟨rfl, rfl⟩
  | some v => exact .inl ⟨v, rfl, rfl⟩

theorem hostRead_missing {i : Nat} {s : State} (h : ¬ i < s.cfg.buflen) :
    hostRead i s = .fault (.noSuchElement i) := if_neg h

theorem hostWrite_existing {i : Nat} {v : Byte} {s : State} (h : i < s.cfg.buflen) :
    hostWrite i v s = .next (s.withBuf (s.buf.write i v)) := if_pos h

theorem hostWrite_missing {i : Nat} {v : Byte} {s : State} (h : ¬ i < s.cfg.buflen) :
    hostWrite i v s = .fault (.noSuchElement i) := if_neg h

theorem takeReset_eq (e : Option Command) (s : State) : takeReset e s = .next (s.withBuf []) := rfl

/-- All that a transaction can do: run the decoded instruction, or raise IllegalCommand. -/
theorem transact_cases (c : Command) (s : State) :
    (∃ i, decode c = .ok i ∧ transact c s = exec i s) ∨
    (∃ e, decode c = .error e ∧ transact c s = .next (s.raise .illegalCommand)) := by
  unfold transact
  cases h : decode c with
  | ok i => exact .inl ⟨i, rfl, rfl⟩
  | error e => exact .inr ⟨e, rfl, rfl⟩

/-- With no move left the system stays as it is. -/
theorem step_idle {s : State} (h : s.moves = []) : step s = .next s := by unfold step; rw [h]

/-- With a move left the step is that move. -/
theorem step_move {s : State} {m : HostMove} {rest : List HostMove} (h : s.moves = m :: rest) :
    step s = perform m { s with moves := rest } := by unfold step; rw [h]

end Sys2Proof.Machine
end

