-- ==== Sys2Proof/Tests/Slice0.lean ====
section
/-! SUPPORT. Tests. Expected values are the spec's own: spec/95_test_vectors.md, and the examples of the rules named. The
witnesses show, for each statement with hypotheses, concrete values that meet them, at the ends of each range. -/

namespace Sys2Proof.Tests

open Sys2Proof.Machine

/-! ## Well-formedness: each check refuses a term outside -128..127 (spec/30_encoding.md R75) -/

theorem test_wf_refuses_extractBits_low :
    Instr.wf (.extractBits 128 0 0#64) = false ∧ Instr.wf (.extractBits (-129) 0 0#64) = false ∧
    Instr.wf (.extractBits 127 0 0#64) = true ∧ Instr.wf (.extractBits (-128) 0 0#64) = true := by decide

theorem test_wf_refuses_extractBits_high :
    Instr.wf (.extractBits 0 128 0#64) = false ∧ Instr.wf (.extractBits 0 (-129) 0#64) = false ∧
    Instr.wf (.extractBits 0 127 0#64) = true ∧ Instr.wf (.extractBits 0 (-128) 0#64) = true := by decide

theorem test_wf_refuses_setBitRange_low :
    Instr.wf (.setBitRange 128 0 0#64) = false ∧ Instr.wf (.setBitRange (-129) 0 0#64) = false ∧
    Instr.wf (.setBitRange 127 0 0#64) = true ∧ Instr.wf (.setBitRange (-128) 0 0#64) = true := by decide

theorem test_wf_refuses_setBitRange_high :
    Instr.wf (.setBitRange 0 128 0#64) = false ∧ Instr.wf (.setBitRange 0 (-129) 0#64) = false ∧
    Instr.wf (.setBitRange 0 127 0#64) = true ∧ Instr.wf (.setBitRange 0 (-128) 0#64) = true := by decide

theorem test_wf_refuses_clearBitRange_low :
    Instr.wf (.clearBitRange 128 0 0#64) = false ∧ Instr.wf (.clearBitRange (-129) 0 0#64) = false ∧
    Instr.wf (.clearBitRange 127 0 0#64) = true ∧ Instr.wf (.clearBitRange (-128) 0 0#64) = true := by decide

theorem test_wf_refuses_clearBitRange_high :
    Instr.wf (.clearBitRange 0 128 0#64) = false ∧ Instr.wf (.clearBitRange 0 (-129) 0#64) = false ∧
    Instr.wf (.clearBitRange 0 127 0#64) = true ∧ Instr.wf (.clearBitRange 0 (-128) 0#64) = true := by decide

theorem test_wf_refuses_assignBit_bitNum :
    Instr.wf (.assignBit 128 0 0#64) = false ∧ Instr.wf (.assignBit (-129) 0 0#64) = false ∧
    Instr.wf (.assignBit 127 0 0#64) = true ∧ Instr.wf (.assignBit (-128) 0 0#64) = true := by decide

theorem test_wf_refuses_assignBit_bitVal :
    Instr.wf (.assignBit 0 128 0#64) = false ∧ Instr.wf (.assignBit 0 (-129) 0#64) = false ∧
    Instr.wf (.assignBit 0 127 0#64) = true ∧ Instr.wf (.assignBit 0 (-128) 0#64) = true := by decide

theorem test_wf_refuses_getByte_byteIndex :
    Instr.wf (.getByte 128 0#64) = false ∧ Instr.wf (.getByte (-129) 0#64) = false ∧
    Instr.wf (.getByte 127 0#64) = true ∧ Instr.wf (.getByte (-128) 0#64) = true := by decide

theorem test_wf_refuses_putByte_byteIndex :
    Instr.wf (.putByte 128 0#8 0#64) = false ∧ Instr.wf (.putByte (-129) 0#8 0#64) = false ∧
    Instr.wf (.putByte 127 0#8 0#64) = true ∧ Instr.wf (.putByte (-128) 0#8 0#64) = true := by decide

theorem test_wf_refuses_clearBuffer_size :
    Instr.wf (.clearBuffer 128) = false ∧ Instr.wf (.clearBuffer (-129)) = false ∧
    Instr.wf (.clearBuffer 127) = true ∧ Instr.wf (.clearBuffer (-128)) = true := by decide

/-! ## Decoding, on words written out from the encoding of spec/30_encoding.md R61 and R64 -/

theorem test_decode_extractBits : decodeTableWord 88 0x013E3FABCDEF0123456789 = some (.extractBits 62 63 0xABCDEF0123456789#64) ∧
    encode (.extractBits 62 63 0xABCDEF0123456789#64) = 0x013E3FABCDEF0123456789#88 := by decide

theorem test_decode_setBitRange : decodeTableWord 88 0x020C0F0123456789ABCDEF = some (.setBitRange 12 15 0x0123456789ABCDEF#64) ∧
    encode (.setBitRange 12 15 0x0123456789ABCDEF#64) = 0x020C0F0123456789ABCDEF#88 := by decide

theorem test_decode_clearBitRange : decodeTableWord 88 0x030C0F0123456789ABCDEF = some (.clearBitRange 12 15 0x0123456789ABCDEF#64) ∧
    encode (.clearBitRange 12 15 0x0123456789ABCDEF#64) = 0x030C0F0123456789ABCDEF#88 := by decide

theorem test_decode_assignBit : decodeTableWord 88 0x040C010123456789ABCDEF = some (.assignBit 12 1 0x0123456789ABCDEF#64) ∧
    encode (.assignBit 12 1 0x0123456789ABCDEF#64) = 0x040C010123456789ABCDEF#88 := by decide

theorem test_decode_getByte : decodeTableWord 88 0x0503000011223344556677 = some (.getByte 3 0x0011223344556677#64) ∧
    encode (.getByte 3 0x0011223344556677#64) = 0x0503000011223344556677#88 := by decide

theorem test_decode_putByte : decodeTableWord 88 0x0603A50011223344556677 = some (.putByte 3 0xA5#8 0x0011223344556677#64) ∧
    encode (.putByte 3 0xA5#8 0x0011223344556677#64) = 0x0603A50011223344556677#88 := by decide

theorem test_decode_buildWord : decodeTableWord 88 0x0700000807060504030201 = some (.buildWord 0x01#8 0x02#8 0x03#8 0x04#8 0x05#8 0x06#8 0x07#8 0x08#8) ∧
    encode (.buildWord 0x01#8 0x02#8 0x03#8 0x04#8 0x05#8 0x06#8 0x07#8 0x08#8) = 0x0700000807060504030201#88 := by decide

theorem test_decode_isNegative : decodeTableWord 88 0x080000ABCDEF0123456789 = some (.isNegative 0xABCDEF0123456789#64) ∧
    encode (.isNegative 0xABCDEF0123456789#64) = 0x080000ABCDEF0123456789#88 := by decide

theorem test_decode_renderBits : decodeTableWord 88 0x090000AABBCCDDEE001122 = some (.renderBits 0xAABBCCDDEE001122#64) ∧
    encode (.renderBits 0xAABBCCDDEE001122#64) = 0x090000AABBCCDDEE001122#88 := by decide

theorem test_decode_clearBuffer : decodeTableWord 88 0x0A48000000000000000000 = some (.clearBuffer 72) ∧
    encode (.clearBuffer 72) = 0x0A48000000000000000000#88 := by decide

/-- The small operands are read as two's complement, byteVal is not (spec/30_encoding.md R62). -/
theorem test_decode_signs :
    decodeTableWord 88 0x0403FF0123456789ABCDEF = some (.assignBit 3 (-1) 0x0123456789ABCDEF#64) ∧
    decodeTableWord 88 0x01FF050123456789ABCDEF = some (.extractBits (-1) 5 0x0123456789ABCDEF#64) ∧
    decodeTableWord 88 0x0600FF0000000000000000 = some (.putByte 0 0xFF#8 0#64) ∧
    decodeTableWord 88 0x0A80000000000000000000 = some (.clearBuffer (-128)) := by decide

/-- The non-canonical words of spec/95_test_vectors.md 2.9. -/
theorem test_decode_ignores_fields :
    decodeTableWord 88 0x08AA55ABCDEF0123456789 = some (.isNegative 0xABCDEF0123456789#64) ∧
    decodeTableWord 88 0x0503FF0011223344556677 = some (.getByte 3 0x0011223344556677#64) ∧
    decodeTableWord 88 0x07FFFF0000000000F0F0F0 =
      some (.buildWord 0xF0#8 0xF0#8 0xF0#8 0#8 0#8 0#8 0#8 0#8) ∧
    decodeTableWord 88 0x0912340000000000000000 = some (.renderBits 0#64) ∧
    decodeTableWord 88 0x0A09FFFFFFFFFFFFFFFFFF = some (.clearBuffer 9) := by decide

/-- The reserved words of spec/95_test_vectors.md 2.9. -/
theorem test_decode_rejects_by_name :
    decode 0#88 = .error (.illegalCommand 0x00#8) ∧
    decode 0x0B00000000000000000000#88 = .error (.illegalCommand 0x0B#8) ∧
    decode 0xFFFFFFFFFFFFFFFFFFFFFF#88 = .error (.illegalCommand 0xFF#8) ∧
    decode 0x100C0F0123456789ABCDEF#88 = .error (.illegalCommand 0x10#8) ∧
    decode 0x813E3FABCDEF0123456789#88 = .error (.illegalCommand 0x81#8) ∧
    decodeTableWord 88 0 = none := by decide

/-! ## One step on one word -/

/-- The next state of an outcome. -/
def next? : Outcome → Option State
  | .next t    => some t
  | .fault _   => none
  | .refused _ => none

/-- What the host's record holds after the one step that runs a word from reset. -/
def returned (w : Nat) : List Event :=
  ((next? (step (State.reset.withFetchWord 88 w))).map State.trace).getD []

/-- BUF after the one step that runs a word on a given BUF. -/
def bufAfter (m : Memory) (w : Nat) : Memory :=
  ((next? (step ((State.reset.withBuf m).withFetchWord 88 w))).map State.buf).getD []

theorem test_extractBits_keeps_bit_63_low : returned 0x013F3FABCDEF0123456789 = [.response (.ok (.word 1#64))] := by decide

theorem test_extractBits_low_above_high : returned 0x01100F0123456789ABCDEF = [.response (.fault .invalidArgument)] := by decide

theorem test_setBitRange_across_bit_31 : returned 0x021F20ABCDEF0123456789 = [.response (.ok (.word 0xABCDEF01A3456789#64))] := by decide

theorem test_setBitRange_high_64 : returned 0x0200400123456789ABCDEF = [.response (.fault .invalidArgument)] := by decide

theorem test_clearBitRange_inner : returned 0x03013EABCDEF0123456789 = [.response (.ok (.word 0x8000000000000001#64))] := by decide

theorem test_clearBitRange_low_above_high : returned 0x0305040123456789ABCDEF = [.response (.fault .invalidArgument)] := by decide

theorem test_assignBit_clears : returned 0x041F00FFFFFFFFFFFFFFFF = [.response (.ok (.word 0xFFFFFFFF7FFFFFFF#64))] := by decide

theorem test_assignBit_bitVal_2 : returned 0x0403020123456789ABCDEF = [.response (.fault .invalidArgument)] := by decide

theorem test_getByte_top_bit_set : returned 0x050700ABCDEF0123456789 = [.response (.ok (.byte 0xAB#8))] := by decide

theorem test_getByte_index_8 : returned 0x0508000011223344556677 = [.response (.fault .invalidArgument)] := by decide

theorem test_putByte_replaces_old_bits : returned 0x06030F00000000F0000000 = [.response (.ok (.word 0x000000000F000000#64))] := by decide

theorem test_putByte_index_minus_1 : returned 0x06FF000011223344556677 = [.response (.fault .invalidArgument)] := by decide

theorem test_buildWord_order : returned 0x0700007766554433221100 = [.response (.ok (.word 0x7766554433221100#64))] := by decide

theorem test_buildWord_top_byte : returned 0x0700008000000000000000 = [.response (.ok (.word 0x8000000000000000#64))] := by decide

theorem test_isNegative_minimum : returned 0x0800008000000000000000 = [.response (.ok (.bool true))] := by decide

theorem test_isNegative_maximum : returned 0x0800007FFFFFFFFFFFFFFF = [.response (.ok (.bool false))] := by decide

theorem test_clearBuffer_size_73 : returned 0x0A49000000000000000000 = [.response (.fault .invalidArgument)] := by decide

theorem test_reserved_opcode : returned 0x0B00000000000000000000 = [.response (.fault .illegalCommand)] := by decide

/-- The index checks of spec/95_test_vectors.md 2.6, and no more than 72 elements written. -/
theorem test_renderBits_ends :
    let m := bufAfter [] 0x0900008000000000000001
    [0, 1, 7, 8, 62, 63, 69, 70, 71].map m.read =
      [some 0x31#8, some 0x30#8, some 0x30#8, some 0x20#8, some 0x20#8, some 0x30#8, some 0x30#8, some 0x31#8,
        some 0x00#8] ∧ m.length = 72 := by decide

/-- The second group of the example of spec/44_bitstring_buffer.md R160: 1011 1011 is byte 6, 0xBB. -/
theorem test_renderBits_second_group :
    (List.range 8).map (fun p => (bufAfter [] 0x090000AABBCCDDEE001122).read (9 + p)) =
      [some 0x31#8, some 0x30#8, some 0x31#8, some 0x31#8, some 0x31#8, some 0x30#8, some 0x31#8, some 0x31#8] := by
  decide

/-- The interval is half open: index 5 is not written (spec/95_test_vectors.md 2.7). -/
theorem test_clearBuffer_half_open :
    (List.range 7).map (bufAfter [(4, 0x41#8), (5, 0x42#8)] 0x0A05000000000000000000).read =
      [some 0#8, some 0#8, some 0#8, some 0#8, some 0#8, some 0x42#8, none] := by decide

/-! ## The host's other moves, the response, the assembler, the primitives -/

/-- What the host's record holds after one move on a BUF with one element written. -/
def afterMove (m : HostMove) : Option (List Event × Memory) :=
  (next? (step { State.reset with buf := [(7, 0x41#8)], moves := [m] })).map fun t => (t.trace, t.buf)

/-- A read of a written element, a write of the last element, an element that does not exist, and the reset
(spec/20_memory.md R40, R49; spec/70_reset_and_hazards.md R211). -/
theorem test_host_moves :
    afterMove (.read 7) = some ([.read 7 0x41#8], [(7, 0x41#8)]) ∧
    afterMove (.write 71 0x42#8) = some ([], [(7, 0x41#8), (71, 0x42#8)]) ∧
    afterMove (.write 7 0x42#8) = some ([], [(7, 0x42#8)]) ∧
    afterMove (.write 72 0x42#8) = none ∧ afterMove (.read 72) = none ∧
    afterMove (.reset (some 0x090000AABBCCDDEE001122#88)) = some ([], []) := by decide

/-- STATUS and R (spec/30_encoding.md R67, R68). -/
theorem test_response_fields :
    (Response.ok (.byte 0xAB#8)).wires 0#64 = 0x000000000000000AB#66 ∧
    (Response.ok (.bool true)).wires 0#64 = 1#66 ∧
    (Response.fault .invalidArgument).status = 1#2 ∧ (Response.fault .illegalCommand).status = 2#2 ∧
    (Response.fault .illegalCommand).r = none := by decide

/-- Lines of the programs of spec/95_test_vectors.md 3, a comment, and what spec/30_encoding.md R70 does not allow. -/
theorem test_assembler :
    assembleLine "clearBitRange(12, 15, 0x0123456789abcdef) ; P1".toList = .ok 0x030C0F0123456789ABCDEF#88 ∧
    assembleLine "putByte(0, 255, 0x0000000000000000)".toList = .ok 0x0600FF0000000000000000#88 ∧
    assembleLine "isNegative(9223372036854775808)".toList = .ok 0x0800008000000000000000#88 ∧
    assembleLine "clearBuffer(-129)".toList = .error .badOperands ∧
    assembleLine "clearBuffer(0x100)".toList = .error .badOperands ∧
    assembleLine "clearBuffer(1, 2)".toList = .error .badOperands ∧
    assembleLine "clearBuffer".toList = .error .notACall ∧
    assembleLine "clearBuffer(x)".toList = .error .badNumeral := by decide

/-- Rows of spec/95_test_vectors.md 2.1. -/
theorem test_primitives :
    (bitRange? 5 58).map mask = some 0x07FFFFFFFFFFFFE0#64 ∧ (bitRange? 1 62).map mask = some 0x7FFFFFFFFFFFFFFE#64 ∧
    ones 63 = 0x7FFFFFFFFFFFFFFF#64 ∧ ones 64 = 0xFFFFFFFFFFFFFFFF#64 ∧
    shl 0xFFFFFFFFFFFFFFFF#64 63 = 0x8000000000000000#64 ∧
    shr 0x8000000000000000#64 63 = 0x0000000000000001#64 ∧
    wordNot 0#64 = 0xFFFFFFFFFFFFFFFF#64 := by decide

/-! ## Witnesses: the hypotheses of each statement are met -/

/-- A state with one command to come. -/
def presenting (c : Command) : State := { State.reset with moves := [.present c] }

/-- A state with one written element. -/
def written : State := State.reset.withBuf [(7, 0x41#8)]

theorem witness_StepRunsTheDecodedInstruction :
    (presenting 0x013E3FABCDEF0123456789#88).moves = .present 0x013E3FABCDEF0123456789#88 :: [] ∧
    decode 0x013E3FABCDEF0123456789#88 = .ok (.extractBits 62 63 0xABCDEF0123456789#64) := by
  decide

theorem witness_DecoderFollowsItsCaseTable :
    (0x00#8 = 0#8 ∨ 0x0A < (0x00#8).toNat) ∧ (0x0B#8 = 0#8 ∨ 0x0A < (0x0B#8).toNat) ∧
    (0xFF#8 = 0#8 ∨ 0x0A < (0xFF#8).toNat) := by
  decide

theorem witness_DecodeInvertsEncode :
    Instr.wf (.extractBits (-128) 127 0xFFFFFFFFFFFFFFFF#64) = true ∧ Instr.wf (.clearBuffer 72) = true := by
  decide

theorem witness_IgnoredFieldsDoNotMatter :
    decode 0x0503000011223344556677#88 = .ok (.getByte 3 0x0011223344556677#64) ∧
    encode (.getByte 3 0x0011223344556677#64) = 0x0503000011223344556677#88 ∧
    decode 0x0503FF0011223344556677#88 = .ok (.getByte 3 0x0011223344556677#64) ∧
    encode (.getByte 3 0x0011223344556677#64) ≠ 0x0503FF0011223344556677#88 ∧
    opField 0x0503FF0011223344556677#88 = 0x05#8 ∧ opField 0x0912340000000000000000#88 = 0x09#8 ∧
    opField 0x0A09FFFFFFFFFFFFFFFFFF#88 = 0x0A#8 := by
  decide

theorem witness_ReservedOpcodesAreIllegalCommands :
    (opField 0#88).toNat = 0 ∧ (presenting 0#88).moves = .present 0#88 :: [] ∧
    0x0B ≤ (opField 0x0B00000000000000000000#88).toNat ∧ 0x0B ≤ (opField 0xFFFFFFFFFFFFFFFFFFFFFF#88).toNat ∧
    1 ≤ (opField 0x0100000000000000000000#88).toNat ∧ (opField 0x0A00000000000000000000#88).toNat ≤ 0x0A := by
  decide

theorem witness_ResponseFieldsAreAsEncoded :
    (Response.ok (.word 7#64) = .ok (.word 7#64)) ∧
    (Response.fault .invalidArgument = .fault .invalidArgument) ∧ (Response.fault .illegalCommand = .fault .illegalCommand) := by
  decide

theorem witness_PrimitivesActBitByBit :
    (0 < 64) ∧ (63 < 64) ∧ ((63 : Fin 64).val ≤ 63) ∧ (0 + (63 : Fin 64).val ≤ 63) := by
  decide

theorem witness_MaskAndOnesAreExact :
    ((bitRange? 0 0).map fun r => (r.low.val, r.high.val)) = some (0, 0) ∧
    ((bitRange? 63 63).map fun r => (r.low.val, r.high.val)) = some (63, 63) ∧
    ((bitRange? 0 63).map fun r => (r.low.val, r.high.val)) = some (0, 63) ∧
    ((bitRange? 12 15).map fun r => (r.low.val, r.high.val)) = some (12, 15) ∧
    1 ≤ 1 ∧ 1 ≤ 64 ∧ (63 : Fin 64).val = 64 - 1 ∧ 64 ≤ 64 ∧ (0 : Fin 64).val = 64 - 64 := by
  decide

theorem witness_ExtractBitsReturnsTheField :
    ¬ ((0 : Int) ≤ 0 ∧ (0 : Int) ≤ 64 ∧ (64 : Int) ≤ 63) ∧ ¬ ((0 : Int) ≤ -1 ∧ (-1 : Int) ≤ 5 ∧ (5 : Int) ≤ 63) ∧
    (0 ≤ 0 ∧ 0 ≤ 63) ∧ (0 ≤ 63 ∧ 63 ≤ 63) ∧ (63 ≤ 63) := by
  decide

theorem witness_SetBitRangeForcesTheRangeToOne :
    ¬ ((5 : Int) ≤ 4) ∧ ¬ ((64 : Int) ≤ 63) ∧ (0 ≤ 63 ∧ 63 ≤ 63) ∧
    next? (exec (.setBitRange 63 63 0#64) State.reset) =
      some { State.reset with trace := [.response (.ok (.word 0x8000000000000000#64))] } := by
  decide

theorem witness_ClearBitRangeForcesTheRangeToZero :
    ¬ ((5 : Int) ≤ 4) ∧ ¬ ((64 : Int) ≤ 63) ∧ (0 ≤ 63 ∧ 63 ≤ 63) ∧
    next? (exec (.clearBitRange 0 0 1#64) State.reset) =
      some { State.reset with trace := [.response (.ok (.word 0#64))] } := by
  decide

theorem witness_AssignBitSetsOneBit :
    (¬ ((0 : Int) ≤ 64 ∧ (64 : Int) ≤ 63) ∨ ¬ ((0 : Int) = 0 ∨ (0 : Int) = 1)) ∧
    (¬ ((0 : Int) ≤ 63 ∧ (63 : Int) ≤ 63) ∨ ¬ ((-1 : Int) = 0 ∨ (-1 : Int) = 1)) ∧
    (63 ≤ 63 ∧ ((0 : Int) = 0 ∨ (0 : Int) = 1)) ∧ (0 ≤ 63 ∧ ((1 : Int) = 0 ∨ (1 : Int) = 1)) ∧ (63 : Fin 64).val = 63 := by
  decide

theorem witness_RangeOkDecidesTheRangeOperations :
    ¬ RangeOk 64 64 ∧ ¬ RangeOk (-1) 5 ∧ ¬ RangeOk 16 15 ∧ RangeOk 0 63 ∧ RangeOk 63 63 := by
  decide

theorem witness_ExtractBitsCornerCases :
    (0 ≤ 63) ∧ (63 ≤ 63) ∧ (0 ≤ 0 ∧ 0 ≤ 63) ∧ (63 - 63 < 1) := by
  decide

theorem witness_ExtractBitsFaultsAsListed :
    ((16, 12) : Int × Int) ∈ [((16, 12) : Int × Int), (0, 64), (64, 64), (-1, 5), (64, 3)] ∧
    ((64, 3) : Int × Int) ∈ [((16, 12) : Int × Int), (0, 64), (64, 64), (-1, 5), (64, 3)] := by
  decide

theorem witness_SetBitRangeCornerCases :
    ((-1, 5) : Int × Int) ∈ [((16, 12) : Int × Int), (0, 64), (64, 64), (-1, 5), (64, 3)] ∧
    (0 ≤ 63 ∧ 63 ≤ 63) := by
  decide

theorem witness_SetThenExtractGivesAllOnes :
    (0 ≤ 63 ∧ 63 ≤ 63) ∧ ((0 = 0) ∧ (63 = 63)) ∧ (63 ≤ 63) := by
  decide

theorem witness_ClearBitRangeCornerCases :
    ((64, 3) : Int × Int) ∈ [((16, 12) : Int × Int), (0, 64), (64, 64), (-1, 5), (64, 3)] ∧
    (0 ≤ 63 ∧ 63 ≤ 63) := by
  decide

theorem witness_SetAndClearAreComplementary :
    (0 ≤ 63 ∧ 63 ≤ 63) ∧ (8 ≤ 15 ∧ 15 ≤ 63 ∧ 0 ≤ 7 ∧ 7 ≤ 63 ∧ (7 < 8 ∨ 15 < 0)) ∧
    (8 ≤ 15 ∧ 15 ≤ 63 ∧ 16 ≤ 63 ∧ 63 ≤ 63 ∧ (63 < 8 ∨ 15 < 16)) := by
  decide

theorem witness_AssignBitLaws :
    (63 ≤ 63) ∧ ((0 : Int) = 0 ∨ (0 : Int) = 1) ∧ ((1 : Int) = 0 ∨ (1 : Int) = 1) ∧
    ((3, 255) : Int × Int) ∈ [((64, 0) : Int × Int), (-1, 1), (3, 2), (3, -1), (3, 255)] := by
  decide

theorem witness_GetByteReturnsTheByte :
    ¬ ((0 : Int) ≤ 8 ∧ (8 : Int) ≤ 7) ∧ ¬ ((0 : Int) ≤ -1 ∧ (-1 : Int) ≤ 7) ∧ (0 ≤ 7) ∧ (7 ≤ 7) := by
  decide

theorem witness_GetByteCornerCases :
    (0 ≤ 7) ∧ (7 ≤ 7) ∧ (8 ≤ 8) ∧ ((7, 0x00#8) : Int × Byte) ∈ [((6, 0x11#8) : Int × Byte), (7, 0x00#8)] := by
  decide

theorem witness_PutByteReplacesTheByte :
    ¬ ((0 : Int) ≤ 8 ∧ (8 : Int) ≤ 7) ∧ ¬ ((0 : Int) ≤ -1 ∧ (-1 : Int) ≤ 7) ∧ (0 ≤ 7) ∧ (7 ≤ 7) := by
  decide

theorem witness_PutByteLaws :
    (7 ≤ 7) ∧ (0 ≤ 7) ∧ (0 ≠ 7) ∧
    next? (exec (.getByte 7 0xAB00000000000000#64) State.reset) =
      some { State.reset with trace := [.response (.ok (.byte 0xAB#8))] } := by
  decide

theorem witness_WordOperationsTouchNothing :
    neverWrites (.isNegative 0#64) = true ∧ neverWrites (.extractBits 0 64 0#64) = true := by
  decide

theorem witness_RenderBitsWritesTheBitString :
    (8 ≤ 70 ∧ 8 % 9 = 8) ∧ (62 ≤ 70 ∧ 62 % 9 = 8) ∧ (7 ≤ 7) ∧ (72 ≤ 72) ∧ State.reset.cfg = Config.default := by
  decide

theorem witness_RenderBitsFollowsTheIndexMap :
    (0 ≤ 71) ∧ (71 ≤ 71) ∧ (72 ≤ 72) ∧ (63 < 64) ∧ 62 ∈ spaceIndices := by
  decide

theorem witness_BitStringHasItsShape :
    State.reset.cfg.legal ∧ (70 ≤ 70 ∧ 70 ∉ spaceIndices) ∧ (62 ≤ 70 ∧ 62 ∈ spaceIndices) := by
  decide

theorem witness_RenderBitsCornerCases :
    (0 < 64) ∧ (63 < 64) ∧ State.reset.cfg = written.cfg ∧ (71 ≤ 71) ∧ (72 ≤ 72) := by
  decide

theorem witness_BitStringDeterminesTheWord :
    State.reset.cfg.legal ∧ (0#64 ≠ 1#64) ∧ (63 < 64) ∧ 8 ∈ spaceIndices := by
  decide

theorem witness_ClearBufferZeroesThePrefix :
    State.reset.cfg.legal ∧ ¬ ((0 : Int) ≤ 73 ∧ (73 : Int) ≤ (State.reset.cfg.buflen : Int)) ∧
    ¬ ((0 : Int) ≤ -1 ∧ (-1 : Int) ≤ (State.reset.cfg.buflen : Int)) ∧ 0 ≤ State.reset.cfg.buflen ∧
    72 ≤ State.reset.cfg.buflen := by
  decide

theorem witness_ClearBufferCornerCases :
    State.reset.cfg.legal ∧ State.reset.cfg.buflen = 72 ∧ 72 ≤ State.reset.cfg.buflen := by
  decide

theorem witness_AccessesHaveNoSideEffects :
    0 < written.cfg.buflen ∧ 71 < written.cfg.buflen := by
  decide

theorem witness_CommandsFormNoMissingIndex :
    written.cfg.legal ∧ written.cfg.buflen ≤ 72 ∧ written.buf.below written.cfg.buflen = true := by
  decide

theorem witness_InvalidArgumentExactlyOnTheTable :
    Config.default.legal ∧ decode 0x0A49000000000000000000#88 = .ok (.clearBuffer 73) ∧
    decode 0x0A48000000000000000000#88 = .ok (.clearBuffer 72) ∧
    decode 0x0140400123456789ABCDEF#88 = .ok (.extractBits 64 64 0x0123456789ABCDEF#64) := by
  decide

theorem witness_OpcodeIsTestedFirst :
    (presenting 0#88).moves = .present 0#88 :: [] ∧
    (presenting 0x0A49000000000000000000#88).moves = .present 0x0A49000000000000000000#88 :: [] ∧
    (presenting 0x0A48000000000000000000#88).moves = .present 0x0A48000000000000000000#88 :: [] := by
  decide

theorem witness_FaultingCommandHasNoEffect :
    next? (transact 0x0A49000000000000000000#88 written) =
      some { written with trace := [.response (.fault .invalidArgument)] } ∧
    next? (transact 0x0B00000000000000000000#88 written) =
      some { written with trace := [.response (.fault .illegalCommand)] } := by
  decide

theorem witness_NextCommandAfterAFaultRunsNormally :
    next? (transact 0x0A49000000000000000000#88 written) =
      some { written with trace := [.response (.fault .invalidArgument)] } ∧
    next? (transact 0x0503000011223344556677#88 { written with trace := [.response (.fault .invalidArgument)] }) =
      some { written with trace := [.response (.fault .invalidArgument), .response (.ok (.byte 0x44#8))] } := by
  decide

theorem witness_OperationsThatNeverFault :
    next? (exec (.extractBits 64 64 0#64) State.reset) =
      some { State.reset with trace := [.response (.fault .invalidArgument)] } ∧
    next? (exec (.putByte 8 0#8 0#64) State.reset) =
      some { State.reset with trace := [.response (.fault .invalidArgument)] } := by
  decide

theorem witness_EveryCommandGetsAResponse :
    (presenting 0x0A00000000000000000000#88).moves = .present 0x0A00000000000000000000#88 :: [] := by
  decide

theorem witness_UnitIsAFunctionOfItsCommand :
    State.reset.cfg = written.cfg ∧ decode 0x0800000000000000000000#88 = .ok (.isNegative 0#64) ∧
    neverWrites (.isNegative 0#64) = true := by
  decide

theorem witness_CommandsCanBeReordered :
    writtenBy State.reset.cfg 0x0800000000000000000000#88 = 0 ∧ writtenBy State.reset.cfg 0x0A00000000000000000000#88 = 0 := by
  decide

theorem witness_ResetLeavesBufUnspecified :
    ({ written with moves := [.reset (some 0x090000AABBCCDDEE001122#88)] } : State).moves =
      .reset (some 0x090000AABBCCDDEE001122#88) :: [] ∧ written.buf.read 7 = some 0x41#8 := by
  decide

theorem witness_HostReadOfAnUnwrittenElementGoesOn :
    ({ State.reset with moves := [.read 71] } : State).moves = .read 71 :: [] ∧
    71 < State.reset.cfg.buflen ∧ State.reset.buf.read 71 = none := by
  decide

theorem witness_StepStopsOnlyOnAMissingElement :
    State.reset.moves = [] ∧ ({ written with moves := [.read 71] } : State).moves = .read 71 :: [] ∧
    71 < written.cfg.buflen ∧ ¬ (72 < written.cfg.buflen) := by
  decide

theorem witness_RecordOnlyGrows :
    next? (step { State.reset with trace := [.response (.fault .illegalCommand)] }) =
      some { State.reset with trace := [.response (.fault .illegalCommand)] } ∧
    State.faulted { State.reset with trace := [.response (.fault .illegalCommand)] } = true := by
  decide

theorem witness_StepKeepsTheInvariant :
    written.inv ∧ next? (step { written with moves := [.write 71 0x42#8] }) =
      some { written with buf := [(7, 0x41#8), (71, 0x42#8)] } := by
  decide

theorem witness_AssemblerAcceptsOnlyCanonicalCommands :
    assembleLine "clearBuffer(255)".toList = .ok 0x0AFF000000000000000000#88 ∧ ';' ∉ "clearBuffer(255)".toList ∧
    '(' ∉ "clearBuffer".toList ∧ "clearBuffer" ∈ ["renderBits", "clearBuffer"] ∧
    smallOperand? (.dec (-128)) = some (-128) ∧ smallOperand? (.dec 256) = none ∧ wordOperand? (.dec (2 ^ 64)) = none ∧
    wordOperand? (.dec (2 ^ 64 - 1)) = some 0xFFFFFFFFFFFFFFFF#64 ∧ smallOperand? (.hex 2 255) = some 255 ∧
    smallOperand? (.hex 3 256) = none ∧ wordOperand? (.hex 16 0) = some 0#64 ∧ wordOperand? (.hex 17 0) = none := by
  decide

/-- Byte `k` as a bit range. -/
def byteRange (k : Fin 8) : BitRange :=
  { low := ⟨8 * k.val, by omega⟩, high := ⟨8 * k.val + 7, by omega⟩, low_le_high := by simp }

theorem witness_MaskLawsHold :
    (∀ k, (byteRange k).low.val = 8 * k.val ∧ (byteRange k).high.val = 8 * k.val + 7) ∧ (0 : Fin 8) ≠ 7 := by
  decide

/-- Moves in range, and element 3 after them: written by the host, written by the unit, unwritten after a reset. -/
theorem witness_RunsAreSequentiallyConsistent :
    (∀ m ∈ [HostMove.present 0x0A09000000000000000000#88, .write 3 0x41#8], m.inRange State.reset.cfg.buflen) ∧
    State.moves { State.reset with moves := [.present 0x0A09000000000000000000#88, .write 3 0x41#8, .read 3] } =
      [.present 0x0A09000000000000000000#88, .write 3 0x41#8] ++ .read 3 :: [] ∧ 3 < State.reset.cfg.buflen ∧
    latestWrite Config.default [.present 0x0A09000000000000000000#88, .write 3 0x41#8] 3 none = some 0x41#8 ∧
    latestWrite Config.default [.write 3 0x41#8, .present 0x0A09000000000000000000#88] 3 none = some 0x00#8 ∧
    latestWrite Config.default [.write 3 0x41#8, .reset none] 3 none = none := by
  refine ⟨?_, by decide, by decide, by decide, by decide, by decide⟩
  intro m hm
  simp only [List.mem_cons, List.not_mem_nil, or_false] at hm
  rcases hm with rfl | rfl
  · exact trivial
  · exact (by decide : 3 < State.reset.cfg.buflen)

end Sys2Proof.Tests
end

/-! # What a command returns and writes, as a function of the command word and the parameters -/

namespace Sys2Proof.Machine

/-! ## Operations with a precondition, and the eight that write nothing -/

/-- The response of an operation with a precondition, from its operands alone (spec/60_exceptions.md R183). -/
def checkedResponse {α : Type} (operands : Option α) (result : α → Value) : Response :=
  match operands with
  | none   => .fault .invalidArgument
  | some x => .ok (result x)

/-- The state reaches `State.checked` only through the record that the response joins. -/
theorem State.checked_answer {α : Type} (s : State) (operands : Option α) (result : α → Value) :
    s.checked operands (fun x => s.answer (result x)) =
      .next (s.emit (.response (checkedResponse operands result))) := by
  cases operands with
  | none => rfl
  | some x => rfl

/-- The response is chosen before the state, so it depends on the instruction alone (spec/10_state.md R20, R26). -/
theorem exists_replies_of_neverWrites {i : Instr} (hi : neverWrites i = true) :
    ∃ r : Response, ∀ s : State, Replies i s r := by
  cases i with
  | extractBits low high word => exact ⟨_, fun s => s.checked_answer (bitRange? low high) _⟩
  | setBitRange low high word => exact ⟨_, fun s => s.checked_answer (bitRange? low high) _⟩
  | clearBitRange low high word => exact ⟨_, fun s => s.checked_answer (bitRange? low high) _⟩
  | assignBit bitNum bitVal word => exact ⟨_, fun s => s.checked_answer (bitAssignment? bitNum bitVal) _⟩
  | getByte byteIndex word => exact ⟨_, fun s => s.checked_answer (byteIndex? byteIndex) _⟩
  | putByte byteIndex byteVal word => exact ⟨_, fun s => s.checked_answer (byteIndex? byteIndex) _⟩
  | buildWord b0 b1 b2 b3 b4 b5 b6 b7 => exact ⟨.ok (.word (combineBytes b0 b1 b2 b3 b4 b5 b6 b7)), fun _ => rfl⟩
  | isNegative word => exact ⟨.ok (.bool (word.getLsbD 63)), fun _ => rfl⟩
  | renderBits word => cases hi
  | clearBuffer size => cases hi

/-- An instruction that only replies leaves BUF to read as before. -/
theorem Replies.repliesWriting {i : Instr} {s : State} {r : Response} (h : Replies i s r) :
    RepliesWriting i s r s.buf.read :=
  ⟨_, h, rfl, rfl, rfl, rfl, fun _ => rfl⟩

/-! ## The two operations that write BUF -/

theorem renderBits_repliesWriting (word : Word) (s : State) :
    RepliesWriting (.renderBits word) s (.ok .none)
      (fun a => if a < 72 then some (bitStringElem s.cfg word a) else s.buf.read a) := by
  obtain ⟨t, hexec, htrace, hcfg, hmoves, hdraws, -, hread⟩ := execRenderBits_spec word s
  exact ⟨t, hexec, htrace, hcfg, hmoves, hdraws, hread⟩

theorem clearBuffer_repliesWriting {size : Int} {s : State} {n : Nat} (h : bufSize? s.cfg size = some n) :
    RepliesWriting (.clearBuffer size) s (.ok .none)
      (fun a => if a < n then some 0x00#8 else s.buf.read a) :=
  ⟨_, State.checked_of_eq_some _ h, by simp, by simp, by simp, by simp, fun a => by simp [Memory.read_writePrefix]⟩

theorem clearBuffer_replies_fault {size : Int} {s : State} (h : bufSize? s.cfg size = none) :
    Replies (.clearBuffer size) s (.fault .invalidArgument) :=
  State.checked_of_eq_none _ h

/-! ## From the instruction to the command word -/

theorem transact_of_decode_ok {c : Command} {i : Instr} (h : decode c = .ok i) (s : State) :
    transact c s = exec i s := by
  unfold transact; rw [h]

theorem transact_of_decode_error {c : Command} {e : DecodeError} (h : decode c = .error e) (s : State) :
    transact c s = .next (s.raise .illegalCommand) := by
  unfold transact; rw [h]

theorem RepliesWriting.transactsWriting {c : Command} {i : Instr} {s : State} {r : Response}
    {content : Nat → Option Byte} (hr : RepliesWriting i s r content) (h : decode c = .ok i) :
    TransactsWriting c s r content := by
  unfold TransactsWriting
  rw [transact_of_decode_ok h]
  exact hr

theorem transactsWriting_of_decode_error {c : Command} {e : DecodeError} (h : decode c = .error e) (s : State) :
    TransactsWriting c s (.fault .illegalCommand) s.buf.read :=
  ⟨_, transact_of_decode_error h s, rfl, rfl, rfl, rfl, fun _ => rfl⟩

/-! ## What `writesTo` says of each kind of command -/

section WritesTo

variable {cfg : Config} {c : Command}

theorem bufSize?_eq_some_iff {size : Int} {n : Nat} :
    bufSize? cfg size = some n ↔ (0 ≤ size ∧ size ≤ (cfg.buflen : Int)) ∧ size.toNat = n := by
  simp [bufSize?]

theorem bufSize?_eq_none_iff {size : Int} :
    bufSize? cfg size = none ↔ ¬ (0 ≤ size ∧ size ≤ (cfg.buflen : Int)) := by
  simp [bufSize?]

theorem writesTo_of_writtenBy_eq_zero (h : writtenBy cfg c = 0) (a : Nat) : writesTo cfg c a = none := by
  simp [writesTo, h]

theorem writtenBy_of_decode_error {e : DecodeError} (h : decode c = .error e) : writtenBy cfg c = 0 := by
  simp [writtenBy, h]

theorem writtenBy_of_neverWrites {i : Instr} (h : decode c = .ok i) (hi : neverWrites i = true) :
    writtenBy cfg c = 0 := by
  cases i with
  | renderBits word => cases hi
  | clearBuffer size => cases hi
  | _ => simp [writtenBy, h]

theorem writesTo_renderBits {word : Word} (h : decode c = .ok (.renderBits word)) (a : Nat) :
    writesTo cfg c a = if a < 72 then some (bitStringElem cfg word a) else none := by
  simp [writesTo, writtenBy, h]

theorem writtenBy_clearBuffer_of_eq_some {size : Int} {n : Nat} (h : decode c = .ok (.clearBuffer size))
    (hn : bufSize? cfg size = some n) : writtenBy cfg c = n := by
  obtain ⟨⟨-, hle⟩, rfl⟩ := bufSize?_eq_some_iff.mp hn
  simp [writtenBy, h, hle]

theorem writtenBy_clearBuffer_of_eq_none {size : Int} (h : decode c = .ok (.clearBuffer size))
    (hn : bufSize? cfg size = none) : writtenBy cfg c = 0 := by
  have hbad := bufSize?_eq_none_iff.mp hn
  simp only [writtenBy, h]
  split <;> omega

theorem writesTo_clearBuffer {size : Int} (h : decode c = .ok (.clearBuffer size)) (a : Nat) :
    writesTo cfg c a = if a < writtenBy cfg c then some 0x00#8 else none := by
  simp [writesTo, h]

end WritesTo

/-! ## A whole transaction -/

/-- The command answers `r` in every state with parameters `cfg`, and writes there what `writesTo` says. -/
def RespondsAlways (cfg : Config) (c : Command) (r : Response) : Prop :=
  ∀ s : State, s.cfg = cfg → TransactsWriting c s r (fun a => (writesTo cfg c a).or (s.buf.read a))

/-- For a command that writes no element, the content that `writesTo` describes is the old one. -/
theorem respondsAlways_of_writtenBy_eq_zero {cfg : Config} {c : Command} {r : Response} (h : writtenBy cfg c = 0)
    (ht : ∀ s : State, s.cfg = cfg → TransactsWriting c s r s.buf.read) : RespondsAlways cfg c r := by
  intro s hs
  simpa [writesTo_of_writtenBy_eq_zero h] using ht s hs

theorem exists_respondsAlways_of_neverWrites (cfg : Config) {c : Command} {i : Instr} (h : decode c = .ok i)
    (hi : neverWrites i = true) : ∃ r, RespondsAlways cfg c r := by
  obtain ⟨r, hr⟩ := exists_replies_of_neverWrites hi
  exact ⟨r, respondsAlways_of_writtenBy_eq_zero (writtenBy_of_neverWrites h hi)
    fun s _ => (hr s).repliesWriting.transactsWriting h⟩

theorem renderBits_respondsAlways (cfg : Config) {c : Command} {word : Word}
    (h : decode c = .ok (.renderBits word)) : RespondsAlways cfg c (.ok .none) := by
  rintro s rfl
  simpa [writesTo_renderBits h, apply_ite Option.or, ite_apply] using
    (renderBits_repliesWriting word s).transactsWriting h

/-- Whether the size is in its domain depends on the parameters alone. -/
theorem exists_respondsAlways_clearBuffer (cfg : Config) {c : Command} {size : Int}
    (h : decode c = .ok (.clearBuffer size)) : ∃ r, RespondsAlways cfg c r := by
  cases hn : bufSize? cfg size with
  | none =>
    refine ⟨.fault .invalidArgument,
      respondsAlways_of_writtenBy_eq_zero (writtenBy_clearBuffer_of_eq_none h hn) ?_⟩
    rintro s rfl
    exact (clearBuffer_replies_fault hn).repliesWriting.transactsWriting h
  | some n =>
    refine ⟨.ok .none, ?_⟩
    rintro s rfl
    simpa [writesTo_clearBuffer h, writtenBy_clearBuffer_of_eq_some h hn, apply_ite Option.or, ite_apply] using
      (clearBuffer_repliesWriting hn).transactsWriting h

/-- The response is chosen before the state: whatever ran before does not matter (spec/10_state.md R20). -/
theorem exists_respondsAlways (cfg : Config) (c : Command) : ∃ r, RespondsAlways cfg c r := by
  cases hd : decode c with
  | error e =>
    exact ⟨_, respondsAlways_of_writtenBy_eq_zero (writtenBy_of_decode_error hd)
      fun s _ => transactsWriting_of_decode_error hd s⟩
  | ok i =>
    cases i with
    | renderBits word => exact ⟨_, renderBits_respondsAlways cfg hd⟩
    | clearBuffer size => exact exists_respondsAlways_clearBuffer cfg hd
    | _ => exact exists_respondsAlways_of_neverWrites cfg hd rfl

/-- Settles O51: the writes are those of `writesTo`, and `exists_respondsAlways` gives the one response. -/
theorem unitIsAFunctionOfItsCommand : Obligations.UnitIsAFunctionOfItsCommand := by
  intro cfg c
  obtain ⟨r, hr⟩ := exists_respondsAlways cfg c
  exact ⟨r, writesTo cfg c, hr, fun i hd hi => writesTo_of_writtenBy_eq_zero (writtenBy_of_neverWrites hd hi)⟩

end Sys2Proof.Machine

/-! # The decoder by its case table, and the canonical form of a command word -/

namespace Sys2Proof

/-! ## The case table, one equation per operation (spec/30_encoding.md R72) -/

/-- The operation codes that name no operation: 0x00 and 0x0B..0xFF (spec/30_encoding.md R65). -/
abbrev ReservedOp (op : Byte) : Prop := op = 0#8 ∨ 0x0A < op.toNat

section CaseTable

variable (a b : Byte) (w : Word)

@[simp] theorem decode_mkCommand_extractBits :
    decode (mkCommand 0x01#8 a b w) = .ok (.extractBits (sext a) (sext b) w) := by simp [decode]

@[simp] theorem decode_mkCommand_setBitRange :
    decode (mkCommand 0x02#8 a b w) = .ok (.setBitRange (sext a) (sext b) w) := by simp [decode]

@[simp] theorem decode_mkCommand_clearBitRange :
    decode (mkCommand 0x03#8 a b w) = .ok (.clearBitRange (sext a) (sext b) w) := by simp [decode]

@[simp] theorem decode_mkCommand_assignBit :
    decode (mkCommand 0x04#8 a b w) = .ok (.assignBit (sext a) (sext b) w) := by simp [decode]

@[simp] theorem decode_mkCommand_getByte :
    decode (mkCommand 0x05#8 a b w) = .ok (.getByte (sext a) w) := by simp [decode]

@[simp] theorem decode_mkCommand_putByte :
    decode (mkCommand 0x06#8 a b w) = .ok (.putByte (sext a) b w) := by simp [decode]

@[simp] theorem decode_mkCommand_buildWord :
    decode (mkCommand 0x07#8 a b w) = .ok (.buildWord (byteField w 0) (byteField w 1) (byteField w 2)
      (byteField w 3) (byteField w 4) (byteField w 5) (byteField w 6) (byteField w 7)) := by simp [decode]

@[simp] theorem decode_mkCommand_isNegative :
    decode (mkCommand 0x08#8 a b w) = .ok (.isNegative w) := by simp [decode]

@[simp] theorem decode_mkCommand_renderBits :
    decode (mkCommand 0x09#8 a b w) = .ok (.renderBits w) := by simp [decode]

@[simp] theorem decode_mkCommand_clearBuffer :
    decode (mkCommand 0x0A#8 a b w) = .ok (.clearBuffer (sext a)) := by simp [decode]

theorem decode_mkCommand_reserved {op : Byte} (h : ReservedOp op) :
    decode (mkCommand op a b w) = .error (.illegalCommand op) := by
  unfold decode
  rw [opField_mkCommand]
  split
  case h_11 => rfl
  all_goals exact absurd h (by decide)

end CaseTable

/-- Settles O5: the case table is the equations above, row by row; `sext` is `BitVec.toInt` and `byteField w k` the
extract at `8 * k` by definition. -/
theorem decoderFollowsItsCaseTable : Obligations.DecoderFollowsItsCaseTable := fun a b w =>
  ⟨decode_mkCommand_extractBits a b w, decode_mkCommand_setBitRange a b w, decode_mkCommand_clearBitRange a b w,
    decode_mkCommand_assignBit a b w, decode_mkCommand_getByte a b w, decode_mkCommand_putByte a b w,
    decode_mkCommand_buildWord a b w, decode_mkCommand_isNegative a b w, decode_mkCommand_renderBits a b w,
    decode_mkCommand_clearBuffer a b w, fun _ h => decode_mkCommand_reserved a b w h⟩

/-! ## A command word is one of the ten operations or has a reserved OP -/

theorem op_cases (op : Byte) : ReservedOp op ∨ op = 0x01#8 ∨ op = 0x02#8 ∨ op = 0x03#8 ∨ op = 0x04#8 ∨
    op = 0x05#8 ∨ op = 0x06#8 ∨ op = 0x07#8 ∨ op = 0x08#8 ∨ op = 0x09#8 ∨ op = 0x0A#8 := by
  unfold ReservedOp
  bv_omega

/-- The case split on a command word, by the rows of the decoder's table (spec/30_encoding.md R72). -/
theorem command_cases {motive : Command → Prop}
    (reserved : ∀ op a b w, ReservedOp op → motive (mkCommand op a b w))
    (extractBits : ∀ a b w, motive (mkCommand 0x01#8 a b w))
    (setBitRange : ∀ a b w, motive (mkCommand 0x02#8 a b w))
    (clearBitRange : ∀ a b w, motive (mkCommand 0x03#8 a b w))
    (assignBit : ∀ a b w, motive (mkCommand 0x04#8 a b w))
    (getByte : ∀ a b w, motive (mkCommand 0x05#8 a b w))
    (putByte : ∀ a b w, motive (mkCommand 0x06#8 a b w))
    (buildWord : ∀ a b w, motive (mkCommand 0x07#8 a b w))
    (isNegative : ∀ a b w, motive (mkCommand 0x08#8 a b w))
    (renderBits : ∀ a b w, motive (mkCommand 0x09#8 a b w))
    (clearBuffer : ∀ a b w, motive (mkCommand 0x0A#8 a b w)) (c : Command) : motive c := by
  rw [← mkCommand_fields c]
  rcases op_cases (opField c) with h | h | h | h | h | h | h | h | h | h | h
  · exact reserved _ _ _ _ h
  all_goals rw [h]
  · exact extractBits _ _ _
  · exact setBitRange _ _ _
  · exact clearBitRange _ _ _
  · exact assignBit _ _ _
  · exact getByte _ _ _
  · exact putByte _ _ _
  · exact buildWord _ _ _
  · exact isNegative _ _ _
  · exact renderBits _ _ _
  · exact clearBuffer _ _ _

theorem mkCommand_eq_iff {op a b : Byte} {w : Word} {c : Command} :
    mkCommand op a b w = c ↔ op = opField c ∧ a = aField c ∧ b = bField c ∧ w = wField c := by
  constructor
  · rintro rfl
    simp
  · rintro ⟨rfl, rfl, rfl, rfl⟩
    exact mkCommand_fields c

/-! ## The canonical form: the same operation with its ignored fields at zero (spec/30_encoding.md R69) -/

/-- The operations that ignore field A: buildWord, isNegative and renderBits (spec/30_encoding.md R64). -/
@[simp] abbrev IgnoresA (op : Byte) : Prop := op = 0x07#8 ∨ op = 0x08#8 ∨ op = 0x09#8

/-- The operations that ignore field B: getByte, clearBuffer, and those that ignore A (spec/30_encoding.md R64). -/
@[simp] abbrev IgnoresB (op : Byte) : Prop := op = 0x05#8 ∨ op = 0x0A#8 ∨ IgnoresA op

/-- The operation that ignores field W: clearBuffer (spec/30_encoding.md R64). -/
@[simp] abbrev IgnoresW (op : Byte) : Prop := op = 0x0A#8

/-- The command word with every ignored field set to zero (spec/30_encoding.md R69). -/
def canonical (c : Command) : Command :=
  mkCommand (opField c) (if IgnoresA (opField c) then 0#8 else aField c)
    (if IgnoresB (opField c) then 0#8 else bField c) (if IgnoresW (opField c) then 0#64 else wField c)

@[simp] theorem canonical_mkCommand (op a b : Byte) (w : Word) : canonical (mkCommand op a b w) =
    mkCommand op (if IgnoresA op then 0#8 else a) (if IgnoresB op then 0#8 else b)
      (if IgnoresW op then 0#64 else w) := by
  simp only [canonical, opField_mkCommand, aField_mkCommand, bField_mkCommand, wField_mkCommand]

theorem canonical_eq_self_iff (c : Command) : canonical c = c ↔
    (IgnoresA (opField c) → aField c = 0#8) ∧ (IgnoresB (opField c) → bField c = 0#8) ∧
    (IgnoresW (opField c) → wField c = 0#64) := by
  rw [canonical, mkCommand_eq_iff]
  simp only [true_and, ite_eq_right_iff, @eq_comm _ 0#8, @eq_comm _ 0#64]

/-- The decoder looks at no ignored field: it reads a word as it reads the word's canonical form. -/
theorem decode_canonical (c : Command) : decode (canonical c) = decode c := by
  induction c using command_cases with
  | reserved op a b w h =>
    rw [canonical_mkCommand, decode_mkCommand_reserved _ _ _ h, decode_mkCommand_reserved _ _ _ h]
  | _ a b w => simp

/-- The eight bytes that the decoder cuts from W make W again (spec/30_encoding.md R73). -/
theorem wordOfBytes_byteField (w : Word) :
    wordOfBytes (byteField w 0) (byteField w 1) (byteField w 2) (byteField w 3)
      (byteField w 4) (byteField w 5) (byteField w 6) (byteField w 7) = w := by
  simp only [wordOfBytes, byteField]
  iterate 7 rw [BitVec.extractLsb'_append_extractLsb'_eq_extractLsb' (by rfl)]
  exact BitVec.extractLsb'_eq_self

/-- Decoding and encoding again gives the canonical form. -/
theorem encode_of_decode {c : Command} {i : Instr} (h : decode c = .ok i) : encode i = canonical c := by
  induction c using command_cases with
  | reserved op a b w hop => rw [decode_mkCommand_reserved _ _ _ hop] at h; cases h
  | buildWord a b w =>
    obtain rfl : _ = i := by simpa using h
    simp [encode, Instr.op, Instr.a, Instr.b, Instr.w, wordOfBytes_byteField]
  | _ a b w =>
    obtain rfl : _ = i := by simpa using h
    simp [encode, Instr.op, Instr.a, Instr.b, Instr.w]

theorem op_of_decode {c : Command} {i : Instr} (h : decode c = .ok i) : i.op = opField c := by
  have henc : opField (encode i) = opField (canonical c) := by rw [encode_of_decode h]
  simpa [encode, canonical] using henc

end Sys2Proof

namespace Sys2Proof.Machine

/-- Two command words of one canonical form differ only in ignored fields, and do the same in every state
(spec/30_encoding.md R69). -/
theorem transact_congr_canonical {c c' : Command} (h : canonical c = canonical c') (s : State) :
    transact c s = transact c' s := by
  unfold transact
  rw [← decode_canonical c, h, decode_canonical]

/-- Settles O7: commands that differ only in ignored fields have one canonical form, and the canonical form is what
`encode` gives back. -/
theorem ignoredFieldsDoNotMatter : Obligations.IgnoredFieldsDoNotMatter := by
  constructor
  · intro s a a' b b' w w'
    exact ⟨transact_congr_canonical (by simp) s, transact_congr_canonical (by simp) s,
      transact_congr_canonical (by simp) s, transact_congr_canonical (by simp) s,
      transact_congr_canonical (by simp) s⟩
  · intro c i h
    rw [encode_of_decode h, canonical_eq_self_iff]
    grind

/-- A command with a reserved OP gets the IllegalCommand response, and nothing else changes
(spec/60_exceptions.md R182). -/
theorem step_of_reservedOp {s : State} {c : Command} {rest : List HostMove} (hop : ReservedOp (opField c))
    (hs : s.moves = .present c :: rest) :
    step s = .next { s with moves := rest, trace := s.trace ++ [.response (.fault .illegalCommand)] } := by
  have hdec : decode c = .error (.illegalCommand (opField c)) := by
    simpa [mkCommand_fields] using decode_mkCommand_reserved (aField c) (bField c) (wField c) hop
  rw [step_move hs]
  exact transact_of_decode_error hdec _

/-- A command whose OP is not reserved is one of the ten operations. -/
theorem exists_decode_of_not_reservedOp {c : Command} (hop : ¬ ReservedOp (opField c)) : ∃ i, decode c = .ok i := by
  induction c using command_cases with
  | reserved op a b w h => exact absurd h (by simpa using hop)
  | _ a b w => simp

/-- Settles O8: a reserved OP by `step_of_reservedOp`, every other by the case table. -/
theorem reservedOpcodesAreIllegalCommands : Obligations.ReservedOpcodesAreIllegalCommands := by
  intro c
  constructor
  · intro hop s rest hs
    exact step_of_reservedOp (by unfold ReservedOp; bv_omega) hs
  · intro hlow hhigh
    obtain ⟨i, hi⟩ := exists_decode_of_not_reservedOp (c := c) (by unfold ReservedOp; bv_omega)
    exact ⟨i, hi, op_of_decode hi⟩

end Sys2Proof.Machine

/-! # The bit-field operations (spec/41_bitfield.md) -/

namespace Sys2Proof.Machine

/-! ## A range as the machine works with it, and as the two operands of a command -/

theorem BitRange.low_val_le_high_val (r : BitRange) : r.low.val ≤ r.high.val := r.low_le_high

/-- Two naturals with `RangeOk` are the ends of a range. -/
theorem exists_bitRange {low high : Nat} (hle : low ≤ high) (hhigh : high ≤ 63) :
    ∃ r : BitRange, r.low.val = low ∧ r.high.val = high :=
  ⟨⟨⟨low, by omega⟩, ⟨high, by omega⟩, hle⟩, rfl, rfl⟩

/-- The ends of a range, as operands, name that range. -/
theorem bitRange?_natCast (r : BitRange) : bitRange? r.low.val r.high.val = some r := by
  have hle := r.low_val_le_high_val
  exact dif_pos (by omega)

/-- On the 8-bit fields `RangeOk` needs no sign: a negative operand reads above 0x3F unsigned
(spec/41_bitfield.md R122). -/
theorem rangeOk_toInt_iff (a b : Byte) : RangeOk a.toInt b.toInt ↔ a.toNat ≤ b.toNat ∧ b.toNat ≤ 0x3F := by
  have ha := a.isLt
  have hb := b.isLt
  simp only [RangeOk, BitVec.toInt_eq_toNat_cond]
  split <;> split <;> omega

/-! ## The three range operations have one shape -/

/-- `op` raises InvalidArgument unless its two small operands are a range, and answers `field` of that range. -/
def IsRangeOperation (op : Int → Int → Word → Instr) (field : BitRange → Word → Word) : Prop :=
  ∀ (low high : Int) (word : Word) (s : State),
    exec (op low high word) s = s.checked (bitRange? low high) fun r => s.answer (.word (field r word))

theorem isRangeOperation_extractBits : IsRangeOperation .extractBits extractField := fun _ _ _ _ => rfl

theorem isRangeOperation_setBitRange : IsRangeOperation .setBitRange setField := fun _ _ _ _ => rfl

theorem isRangeOperation_clearBitRange : IsRangeOperation .clearBitRange clearField := fun _ _ _ _ => rfl

section RangeOperation

variable {op : Int → Int → Word → Instr} {field : BitRange → Word → Word}

theorem IsRangeOperation.replies_fault (h : IsRangeOperation op field) {low high : Int} (hbad : ¬ RangeOk low high)
    (word : Word) (s : State) : Replies (op low high word) s (.fault .invalidArgument) :=
  (h low high word s).trans (State.checked_of_eq_none _ (bitRange?_eq_none hbad))

theorem IsRangeOperation.replies_of_eq_some (h : IsRangeOperation op field) {low high : Int} {r : BitRange}
    (hr : bitRange? low high = some r) (word : Word) (s : State) :
    Replies (op low high word) s (.ok (.word (field r word))) :=
  (h low high word s).trans (State.checked_of_eq_some _ hr)

theorem IsRangeOperation.replies (h : IsRangeOperation op field) (r : BitRange) (s : State) {word v : Word}
    (hv : field r word = v) : Replies (op r.low.val r.high.val word) s (.ok (.word v)) :=
  hv ▸ h.replies_of_eq_some (bitRange?_natCast r) word s

end RangeOperation

/-- Settles O18: the three operations share `bitRange?`, which is `RangeOk` on integers. -/
theorem rangeOkDecidesTheRangeOperations : Obligations.RangeOkDecidesTheRangeOperations := by
  refine ⟨fun s word low high => ⟨fun hbad => ?_, fun hok => ?_⟩, rangeOk_toInt_iff⟩
  · exact ⟨isRangeOperation_extractBits.replies_fault hbad word s,
      isRangeOperation_setBitRange.replies_fault hbad word s,
      isRangeOperation_clearBitRange.replies_fault hbad word s⟩
  · obtain ⟨h0, hle, h63⟩ := hok
    obtain ⟨r, hr, -, -⟩ := bitRange?_of_ok h0 hle h63
    exact ⟨_, _, _, isRangeOperation_extractBits.replies_of_eq_some hr word s,
      isRangeOperation_setBitRange.replies_of_eq_some hr word s,
      isRangeOperation_clearBitRange.replies_of_eq_some hr word s⟩

/-! ## The results bit by bit -/

@[simp] theorem getLsbD_extractField (r : BitRange) (w : Word) (i : Nat) : (extractField r w).getLsbD i =
    if i ≤ r.high.val - r.low.val then w.getLsbD (r.low.val + i) else false := by
  have hhigh := r.high.isLt
  simp only [extractField, getLsbD_wordAnd, getLsbD_shr, getLsbD_ones, BitRange.width]
  split
  · next hi => simp [show i < 64 by omega, show i < r.high.val - r.low.val + 1 by omega]
  · next hi => simp [show ¬ i < r.high.val - r.low.val + 1 by omega]

@[simp] theorem getLsbD_setField (r : BitRange) (w : Word) (i : Nat) : (setField r w).getLsbD i =
    if r.low.val ≤ i ∧ i ≤ r.high.val then true else w.getLsbD i := by
  rw [setField, getLsbD_wordOr, getLsbD_mask, ← Bool.decide_and]
  split
  · next hi => simp [hi]
  · next hi => simp [hi]

@[simp] theorem getLsbD_clearField (r : BitRange) (w : Word) (i : Nat) : (clearField r w).getLsbD i =
    if r.low.val ≤ i ∧ i ≤ r.high.val then false else w.getLsbD i := by
  rw [clearField, getLsbD_wordAnd, getLsbD_wordNot, getLsbD_mask, ← Bool.decide_and]
  split
  · next hi => simp [hi]
  · next hi => simpa [hi] using BitVec.lt_of_getLsbD

/-- Settles O14, by the case table of the decoder and the bits of `extractField`. -/
theorem extractBitsReturnsTheField : Obligations.ExtractBitsReturnsTheField := by
  intro s word
  refine ⟨fun a b => decode_mkCommand_extractBits a b word,
    fun low high hbad => isRangeOperation_extractBits.replies_fault hbad word s,
    fun low high hle hhigh => ?_, rfl,
    isRangeOperation_extractBits.replies ⟨62, 63, by decide⟩ s (by decide)⟩
  obtain ⟨r, rfl, rfl⟩ := exists_bitRange hle hhigh
  exact ⟨extractField r word, isRangeOperation_extractBits.replies r s rfl, getLsbD_extractField r word⟩

/-- Settles O15, by the case table of the decoder and the bits of `setField`. -/
theorem setBitRangeForcesTheRangeToOne : Obligations.SetBitRangeForcesTheRangeToOne := by
  intro s word
  refine ⟨fun a b => decode_mkCommand_setBitRange a b word,
    fun low high hbad => isRangeOperation_setBitRange.replies_fault hbad word s,
    fun low high hle hhigh => ?_, rfl,
    isRangeOperation_setBitRange.replies ⟨12, 15, by decide⟩ s (by decide)⟩
  obtain ⟨r, rfl, rfl⟩ := exists_bitRange hle hhigh
  exact ⟨setField r word, isRangeOperation_setBitRange.replies r s rfl, getLsbD_setField r word⟩

/-- Settles O16, by the case table of the decoder and the bits of `clearField`. -/
theorem clearBitRangeForcesTheRangeToZero : Obligations.ClearBitRangeForcesTheRangeToZero := by
  intro s word
  refine ⟨fun a b => decode_mkCommand_clearBitRange a b word,
    fun low high hbad => isRangeOperation_clearBitRange.replies_fault hbad word s,
    fun low high hle hhigh => ?_, rfl,
    isRangeOperation_clearBitRange.replies ⟨12, 15, by decide⟩ s (by decide)⟩
  obtain ⟨r, rfl, rfl⟩ := exists_bitRange hle hhigh
  exact ⟨clearField r word, isRangeOperation_clearBitRange.replies r s rfl, getLsbD_clearField r word⟩

/-! ## assignBit -/

theorem assignBit_replies_fault {bitNum bitVal : Int}
    (hbad : ¬ (0 ≤ bitNum ∧ bitNum ≤ 63) ∨ ¬ (bitVal = 0 ∨ bitVal = 1)) (word : Word) (s : State) :
    Replies (.assignBit bitNum bitVal word) s (.fault .invalidArgument) :=
  State.checked_of_eq_none _ (bitAssignment?_eq_none hbad)

theorem assignBit_replies (n : Fin 64) (s : State) {bitVal : Int} {word v : Word} (hval : bitVal = 0 ∨ bitVal = 1)
    (hv : assignField n (decide (bitVal = 1)) word = v) : Replies (.assignBit n.val bitVal word) s (.ok (.word v)) := by
  have hn := n.isLt
  obtain ⟨p, hp, hpn⟩ := bitAssignment?_of_ok (n := n.val) (by omega) (by omega) hval
  obtain rfl : p = n := Fin.ext hpn
  exact hv ▸ State.checked_of_eq_some _ hp

/-- assignBit is setBitRange or clearBitRange of the one position. -/
theorem assignField_eq_ite (n : Fin 64) (v : Bool) (w : Word) :
    assignField n v w = if v then setField (.single n) w else clearField (.single n) w := rfl

@[simp] theorem getLsbD_assignField (n : Fin 64) (v : Bool) (w : Word) (i : Nat) :
    (assignField n v w).getLsbD i = if i = n.val then v else w.getLsbD i := by
  cases v with
  | false => simp [assignField_eq_ite, ← le_antisymm_iff, eq_comm]
  | true => simp [assignField_eq_ite, ← le_antisymm_iff, eq_comm]

/-- A bit value shifted to position `n` is that bit at `n` and 0 elsewhere. -/
theorem getLsbD_shl_bitVal (n : Fin 64) {bitVal : Int} (hval : bitVal = 0 ∨ bitVal = 1) (i : Nat) :
    (shl (BitVec.ofInt 64 bitVal) n).getLsbD i = (decide (i = n.val) && decide (bitVal = 1)) := by
  rcases hval with rfl | rfl
  · simp
  · rw [getLsbD_shl, show BitVec.ofInt 64 1 = 1#64 from rfl, BitVec.getLsbD_one]
    grind

/-- The form with no choice on the bit value: clear the position, then OR the value in
(spec/41_bitfield.md R119, R120). -/
theorem assignField_eq_or (n : Fin 64) {bitVal : Int} (hval : bitVal = 0 ∨ bitVal = 1) (w : Word) :
    assignField n (decide (bitVal = 1)) w = wordOr (clearField (.single n) w) (shl (BitVec.ofInt 64 bitVal) n) := by
  refine BitVec.eq_of_getLsbD_eq fun i _ => ?_
  simp only [getLsbD_assignField, getLsbD_wordOr, getLsbD_clearField, getLsbD_shl_bitVal n hval,
    ← le_antisymm_iff, eq_comm (a := n.val)]
  split
  · next hin => simp [hin]
  · next hin => simp [hin]

/-- Settles O17, by the case table of the decoder and the bits of `assignField`. -/
theorem assignBitSetsOneBit : Obligations.AssignBitSetsOneBit := by
  intro s word
  refine ⟨fun a b => decode_mkCommand_assignBit a b word,
    fun bitNum bitVal hbad => assignBit_replies_fault hbad word s,
    fun bitNum bitVal hnum hval => ?_, rfl, assignBit_replies 12 s (.inr rfl) (by decide)⟩
  obtain ⟨p, rfl⟩ : ∃ p : Fin 64, p.val = bitNum := ⟨⟨bitNum, by omega⟩, rfl⟩
  refine ⟨assignField p (decide (bitVal = 1)) word, assignBit_replies p s hval rfl,
    getLsbD_assignField p _ word, fun n hn => ?_⟩
  obtain rfl : n = p := Fin.ext hn
  exact assignField_eq_or n hval word

/-! ## What extractBits sees -/

/-- extractBits sees the bits of its range and no other. -/
theorem extractField_congr {r : BitRange} {w w' : Word}
    (h : ∀ i, r.low.val ≤ i → i ≤ r.high.val → w.getLsbD i = w'.getLsbD i) :
    extractField r w = extractField r w' := by
  have hle := r.low_val_le_high_val
  refine BitVec.eq_of_getLsbD_eq fun i _ => ?_
  rw [getLsbD_extractField, getLsbD_extractField]
  split
  · exact h _ (by omega) (by omega)
  · rfl

@[simp] theorem extractField_zero (r : BitRange) : extractField r 0#64 = 0#64 :=
  BitVec.eq_of_getLsbD_eq fun i _ => by simp

theorem extractField_allOnes (r : BitRange) : extractField r (BitVec.allOnes 64) = ones r.width := by
  have hhigh := r.high.isLt
  refine BitVec.eq_of_getLsbD_eq fun i hi => ?_
  rw [getLsbD_extractField, getLsbD_ones, BitVec.getLsbD_allOnes, BitRange.width]
  grind

theorem extractField_setField (r : BitRange) (w : Word) : extractField r (setField r w) = ones r.width := by
  rw [← extractField_allOnes]
  refine extractField_congr fun i hlow hhigh => ?_
  have hi : i < 64 := by omega
  rw [getLsbD_setField, if_pos ⟨hlow, hhigh⟩, BitVec.getLsbD_allOnes, decide_eq_true hi]

theorem extractField_clearField (r : BitRange) (w : Word) : extractField r (clearField r w) = 0#64 := by
  rw [← extractField_zero r]
  refine extractField_congr fun i hlow hhigh => ?_
  rw [getLsbD_clearField, if_pos ⟨hlow, hhigh⟩, BitVec.getLsbD_zero]

theorem extractField_single (n : Fin 64) (w : Word) :
    extractField (.single n) w = if w.getLsbD n then 1#64 else 0#64 := by
  refine BitVec.eq_of_getLsbD_eq fun i _ => ?_
  rw [getLsbD_extractField]
  cases i with
  | zero => cases w.getLsbD n <;> simp
  | succ i => cases w.getLsbD n <;> simp [BitVec.getLsbD_one]

/-- The range of all 64 positions. -/
abbrev BitRange.full : BitRange := { low := 0, high := 63, low_le_high := by decide }

theorem extractField_full (w : Word) : extractField .full w = w := by
  refine BitVec.eq_of_getLsbD_eq fun i hi => ?_
  rw [getLsbD_extractField, if_pos (by simp; omega)]
  simp

/-- Settles O19: the bits of `extractField`, read at each corner. -/
theorem extractBitsCornerCases : Obligations.ExtractBitsCornerCases := by
  intro s w
  refine ⟨fun n hn => ?_, isRangeOperation_extractBits.replies .full s (extractField_full w),
    fun low high hle hhigh => ?_, isRangeOperation_extractBits.replies ⟨12, 15, by decide⟩ s (by decide)⟩
  · exact isRangeOperation_extractBits.replies (.single ⟨n, by omega⟩) s (extractField_single _ w)
  · obtain ⟨r, rfl, rfl⟩ := exists_bitRange hle hhigh
    refine ⟨isRangeOperation_extractBits.replies r s (extractField_zero r),
      isRangeOperation_extractBits.replies r s (extractField_allOnes r),
      extractField r w, isRangeOperation_extractBits.replies r s rfl, fun i hi => ?_⟩
    rw [getLsbD_extractField, if_neg (by omega)]

/-- Settles O22, by `extractField_setField`. -/
theorem setThenExtractGivesAllOnes : Obligations.SetThenExtractGivesAllOnes := by
  intro s u w low high hle hhigh
  obtain ⟨r, rfl, rfl⟩ := exists_bitRange hle hhigh
  refine ⟨setField r w, isRangeOperation_setBitRange.replies r s rfl,
    isRangeOperation_extractBits.replies r u (extractField_setField r w), fun h0 h63 => ?_⟩
  refine isRangeOperation_extractBits.replies r u ?_
  rw [extractField_setField, BitRange.width, h0, h63]
  decide

/-! ## The corners of clearBitRange -/

/-- A word AND a constant, once the constant is known to be the complement of the mask. -/
theorem clearField_eq_and {r : BitRange} {m : Word} (h : wordNot (mask r) = m) (w : Word) :
    clearField r w = w &&& m := by rw [clearField, h, wordAnd]

theorem clearField_clearField (r : BitRange) (w : Word) : clearField r (clearField r w) = clearField r w := by
  simp [clearField_eq_and rfl, BitVec.and_assoc]

theorem clearField_zero (r : BitRange) : clearField r 0#64 = 0#64 := by simp [clearField_eq_and rfl]

theorem clearField_full (w : Word) : clearField .full w = 0#64 := by
  rw [clearField_eq_and (m := 0#64) (by decide), BitVec.and_zero]

/-- Settles O23: what is cleared is `w &&& m` for a constant `m` at the ends, and `extractField_clearField`. -/
theorem clearBitRangeCornerCases : Obligations.ClearBitRangeCornerCases := by
  intro s u w
  refine ⟨isRangeOperation_clearBitRange.replies .full s (clearField_full w),
    isRangeOperation_clearBitRange.replies (.single 63) s (by decide),
    isRangeOperation_clearBitRange.replies (.single 63) s (clearField_eq_and (by decide) w),
    isRangeOperation_clearBitRange.replies (.single 0) s (clearField_eq_and (by decide) w),
    fun p hp => ?_, fun low high hle hhigh => ?_⟩
  · have hbad : ∀ p ∈ [((16, 12) : Int × Int), (0, 64), (64, 64), (-1, 5), (64, 3)], ¬ RangeOk p.1 p.2 := by decide
    exact isRangeOperation_clearBitRange.replies_fault (hbad p hp) w s
  · obtain ⟨r, rfl, rfl⟩ := exists_bitRange hle hhigh
    exact ⟨⟨clearField r w, isRangeOperation_clearBitRange.replies r s rfl,
      isRangeOperation_clearBitRange.replies r s (clearField_clearField r w),
      isRangeOperation_extractBits.replies r u (extractField_clearField r w)⟩,
      isRangeOperation_clearBitRange.replies r s (clearField_zero r)⟩

/-! ## The scenarios with wrong literals (spec/90_conflicts.md C1) -/

/-- Settles O26: each reply is the contract's, its word computed from the masks. -/
theorem contractsDecideTheWrongLiterals : Obligations.ContractsDecideTheWrongLiterals := fun s =>
  ⟨isRangeOperation_setBitRange.replies ⟨12, 15, by decide⟩ s (by decide),
    isRangeOperation_clearBitRange.replies ⟨12, 15, by decide⟩ s (by decide),
    assignBit_replies 12 s (.inr rfl) (by decide),
    isRangeOperation_setBitRange.replies ⟨12, 15, by decide⟩ s (by decide),
    isRangeOperation_clearBitRange.replies ⟨12, 15, by decide⟩ s (by decide),
    assignBit_replies 12 s (.inr rfl) (by decide)⟩

end Sys2Proof.Machine

/-! # The byte operations (spec/42_byte.md) -/

namespace Sys2Proof.Machine

/-! ## A byte of a word, and a byte shifted to its place -/

/-- A byte index, as an operand, names that index. -/
theorem byteIndex?_natCast (k : Fin 8) : byteIndex? k.val = some k := dif_pos (by omega)

/-- A byte moved to position `k` holds its bits there and zeros elsewhere. -/
theorem getLsbD_shl_byteShift (k : Fin 8) (b : Byte) (i : Nat) :
    (shl (b.setWidth 64) (byteShift k)).getLsbD i =
      if 8 * k.val ≤ i ∧ i ≤ 8 * k.val + 7 then b.getLsbD (i - 8 * k.val) else false := by
  have hk := k.isLt
  rw [getLsbD_shl, BitVec.getLsbD_setWidth]
  split
  · next hi => simp [show i < 64 by omega, show ¬ i < 8 * k.val by omega, show i - 8 * k.val < 64 by omega]
  · next hi =>
    rcases Nat.lt_or_ge i (8 * k.val) with hlow | hlow
    · simp [hlow]
    · simp [BitVec.getLsbD_of_ge b (i - 8 * k.val) (by omega)]

/-- getByte answers the byte that the decoder would cut at that index (spec/42_byte.md R130). -/
theorem byteOf_eq_byteField (k : Fin 8) (w : Word) : byteOf k w = byteField w k := by
  refine BitVec.eq_of_getLsbD_eq fun i hi => ?_
  rw [byteOf, show 0x00000000000000FF#64 = ones 8 by decide, BitVec.getLsbD_setWidth, getLsbD_wordAnd, getLsbD_shr,
    getLsbD_ones, byteField, BitVec.getLsbD_extractLsb']
  simp [hi, show i < 64 by omega]

/-- putByte changes the bits of its byte and no other (spec/42_byte.md R133, R135). -/
theorem getLsbD_replaceByte (k : Fin 8) (b : Byte) (w : Word) (i : Nat) : (replaceByte k b w).getLsbD i =
    if 8 * k.val ≤ i ∧ i ≤ 8 * k.val + 7 then b.getLsbD (i - 8 * k.val) else w.getLsbD i := by
  have hk := k.isLt
  rw [replaceByte, show 0x00000000000000FF#64 = (BitVec.allOnes 8).setWidth 64 by decide, getLsbD_wordOr,
    getLsbD_wordAnd, getLsbD_wordNot, getLsbD_shl_byteShift, getLsbD_shl_byteShift, BitVec.getLsbD_allOnes]
  split
  · next hi => simp [show i - 8 * k.val < 8 by omega]
  · next hi => simpa using BitVec.lt_of_getLsbD

/-! ## getByte and putByte -/

theorem getByte_replies_fault {byteIndex : Int} (hbad : ¬ (0 ≤ byteIndex ∧ byteIndex ≤ 7)) (word : Word) (s : State) :
    Replies (.getByte byteIndex word) s (.fault .invalidArgument) :=
  State.checked_of_eq_none _ (byteIndex?_eq_none hbad)

theorem getByte_replies (k : Fin 8) (s : State) {word : Word} {v : Byte} (hv : byteField word k = v) :
    Replies (.getByte k.val word) s (.ok (.byte v)) := by
  rw [← hv, ← byteOf_eq_byteField]
  exact State.checked_of_eq_some _ (byteIndex?_natCast k)

theorem putByte_replies_fault {byteIndex : Int} (hbad : ¬ (0 ≤ byteIndex ∧ byteIndex ≤ 7)) (byteVal : Byte)
    (word : Word) (s : State) : Replies (.putByte byteIndex byteVal word) s (.fault .invalidArgument) :=
  State.checked_of_eq_none _ (byteIndex?_eq_none hbad)

theorem putByte_replies (k : Fin 8) (s : State) {byteVal : Byte} {word v : Word} (hv : replaceByte k byteVal word = v) :
    Replies (.putByte k.val byteVal word) s (.ok (.word v)) :=
  hv ▸ State.checked_of_eq_some _ (byteIndex?_natCast k)

/-- R[63:8] is zero under a byte result (spec/42_byte.md R130, R132). -/
theorem toNat_toR_byte (b : Byte) : (Value.byte b).toR.toNat = b.toNat :=
  BitVec.toNat_setWidth_of_le (by decide)

/-- Settles O27, by the case table of the decoder and `byteOf_eq_byteField`. -/
theorem getByteReturnsTheByte : Obligations.GetByteReturnsTheByte := by
  intro s word
  refine ⟨fun a b => decode_mkCommand_getByte a b word, fun byteIndex hbad => getByte_replies_fault hbad word s,
    fun k hk => ?_, rfl, getByte_replies 3 s (by decide)⟩
  refine ⟨byteField word k, getByte_replies ⟨k, by omega⟩ s rfl, fun i hi => ?_, toNat_toR_byte _⟩
  rw [byteField, BitVec.getLsbD_extractLsb', decide_eq_true hi, Bool.true_and]

/-- Settles O29, by the case table of the decoder and the bits of `replaceByte`. -/
theorem putByteReplacesTheByte : Obligations.PutByteReplacesTheByte := by
  intro s word byteVal
  refine ⟨fun a => decode_mkCommand_putByte a byteVal word,
    fun byteIndex hbad => putByte_replies_fault hbad byteVal word s,
    fun k hk => ?_, rfl, putByte_replies 3 s (by decide)⟩
  exact ⟨_, putByte_replies ⟨k, by omega⟩ s rfl, getLsbD_replaceByte ⟨k, by omega⟩ byteVal word⟩

/-! ## buildWord -/

/-- One round of buildWord's loop ORs into byte `k` and leaves the other bytes (spec/42_byte.md R137). -/
theorem byteField_orByte (r : Word) (k : Fin 8) (b : Byte) (j : Nat) :
    byteField (orByte r k b) j = if j = k.val then byteField r j ||| b else byteField r j := by
  refine BitVec.eq_of_getLsbD_eq fun i hi => ?_
  rw [byteField, BitVec.getLsbD_extractLsb', orByte, getLsbD_wordOr, getLsbD_shl_byteShift]
  by_cases hjk : j = k.val
  · rw [if_pos (by omega), if_pos hjk, hjk]
    simp [byteField, hi]
  · rw [if_neg (by omega), if_neg hjk]
    simp [byteField, hi]

@[simp] theorem byteField_zero (j : Nat) : byteField 0#64 j = 0#8 := BitVec.extractLsb'_zero

/-- A word is the number whose base-256 digits are its bytes (spec/00_scope.md R12). -/
theorem toNat_eq_sum_byteField (w : Word) : w.toNat =
    (byteField w 0).toNat + (byteField w 1).toNat * 256 + (byteField w 2).toNat * 256 ^ 2 +
      (byteField w 3).toNat * 256 ^ 3 + (byteField w 4).toNat * 256 ^ 4 + (byteField w 5).toNat * 256 ^ 5 +
      (byteField w 6).toNat * 256 ^ 6 + (byteField w 7).toNat * 256 ^ 7 := by
  have hw := w.isLt
  simp only [byteField, BitVec.extractLsb'_toNat, Nat.shiftRight_eq_div_pow]
  omega

section BuildWord

variable {b0 b1 b2 b3 b4 b5 b6 b7 : Byte}

/-- Byte `k` of buildWord's result is its operand `b_k`: only round `k` of the loop reaches it
(spec/42_byte.md R137, R138). -/
theorem byteField_of_combineBytes_eq {w : Word} (h : combineBytes b0 b1 b2 b3 b4 b5 b6 b7 = w) :
    byteField w 0 = b0 ∧ byteField w 1 = b1 ∧ byteField w 2 = b2 ∧ byteField w 3 = b3 ∧
    byteField w 4 = b4 ∧ byteField w 5 = b5 ∧ byteField w 6 = b6 ∧ byteField w 7 = b7 := by
  simp [← h, combineBytes, byteField_orByte]

theorem buildWord_replies {v : Word} (hv : combineBytes b0 b1 b2 b3 b4 b5 b6 b7 = v) (s : State) :
    Replies (.buildWord b0 b1 b2 b3 b4 b5 b6 b7) s (.ok (.word v)) := hv ▸ rfl

end BuildWord

/-- Settles O31: the bytes of `combineBytes` are the operands, the decoder cuts the same bytes, and the number is their
sum by place. -/
theorem buildWordConcatenatesTheBytes : Obligations.BuildWordConcatenatesTheBytes := by
  intro s b0 b1 b2 b3 b4 b5 b6 b7
  obtain ⟨r, hr⟩ : ∃ r, combineBytes b0 b1 b2 b3 b4 b5 b6 b7 = r := ⟨_, rfl⟩
  obtain ⟨h0, h1, h2, h3, h4, h5, h6, h7⟩ := byteField_of_combineBytes_eq hr
  refine ⟨r, buildWord_replies hr s, ?number, h0, h1, h2, h3, h4, h5, h6, h7, fun a b => ?decoded, rfl,
    buildWord_replies (by decide) s⟩
  case number => rw [toNat_eq_sum_byteField, h0, h1, h2, h3, h4, h5, h6, h7]
  case decoded => rw [decode_mkCommand_buildWord, h0, h1, h2, h3, h4, h5, h6, h7]

end Sys2Proof.Machine

/-! # The sign test (spec/43_sign_test.md) -/

namespace Sys2Proof.Machine

theorem isNegative_replies {word : Word} {v : Bool} (hv : word.getLsbD 63 = v) (s : State) :
    Replies (.isNegative word) s (.ok (.bool v)) := hv ▸ rfl

theorem getLsbD_toR_bool (b : Bool) (i : Nat) : (Value.bool b).toR.getLsbD i = (decide (i = 0) && b) := by
  cases b with
  | false => simp [Value.toR]
  | true => simp [Value.toR, BitVec.getLsbD_one]

/-- The top bit alone in R[0] is the word shifted down by 63: every higher bit of either is zero. -/
theorem toR_bool_getLsbD_63 (w : Word) : (Value.bool (w.getLsbD 63)).toR = w >>> 63 := by
  refine BitVec.eq_of_getLsbD_eq fun i _ => ?_
  rw [getLsbD_toR_bool, BitVec.getLsbD_ushiftRight]
  cases i with
  | zero => simp
  | succ i => simp [BitVec.getLsbD_of_ge w (63 + (i + 1)) (by omega)]

/-- Settles O33, by the case table of the decoder, the one response of the operation and `toR_bool_getLsbD_63`. -/
theorem isNegativeReturnsBit63 : Obligations.IsNegativeReturnsBit63 := fun s word =>
  ⟨fun a b => decode_mkCommand_isNegative a b word, isNegative_replies rfl s, toR_bool_getLsbD_63 word, rfl,
    isNegative_replies (by decide) s, isNegative_replies (by decide) s⟩

end Sys2Proof.Machine

/-! # The bit-string and the buffer clear (spec/44_bitstring_buffer.md) -/

namespace Sys2Proof.Machine

/-! ## A command that writes elements 0..n-1 of BUF, and keeps the rest -/

theorem RepliesWriting.exists_writesBelow {i : Instr} {s : State} {r : Response} {n : Nat} {f : Nat → Byte}
    (h : RepliesWriting i s r fun a => if a < n then some (f a) else s.buf.read a) :
    ∃ t, exec i s = .next t ∧ t.trace = s.trace ++ [.response r] ∧ t.cfg = s.cfg ∧ t.moves = s.moves ∧
      t.draws = s.draws ∧ (∀ a, a < n → t.buf.read a = some (f a)) ∧ ∀ a, n ≤ a → t.buf.read a = s.buf.read a := by
  obtain ⟨t, hexec, htrace, hcfg, hmoves, hdraws, hread⟩ := h
  exact ⟨t, hexec, htrace, hcfg, hmoves, hdraws, fun a ha => (hread a).trans (if_pos ha),
    fun a ha => (hread a).trans (if_neg (Nat.not_lt.mpr ha))⟩

/-- A size within the buffer, as an operand, names that size. -/
theorem bufSize?_natCast {cfg : Config} {size : Nat} (h : size ≤ cfg.buflen) : bufSize? cfg size = some size :=
  if_pos (by omega)

theorem clearBuffer_repliesWriting_natCast {size : Nat} {s : State} (h : size ≤ s.cfg.buflen) :
    RepliesWriting (.clearBuffer size) s (.ok .none) (fun a => if a < size then some 0x00#8 else s.buf.read a) :=
  clearBuffer_repliesWriting (bufSize?_natCast h)

/-! ## The bit-string by its indices -/

theorem mem_spaceIndices_iff {i : Nat} (hi : i ≤ 70) : i ∈ spaceIndices ↔ i % 9 = 8 := by
  simp only [spaceIndices, List.mem_cons, List.not_mem_nil, or_false]
  omega

/-- Every index of 0..70 that is no space shows a digit (spec/44_bitstring_buffer.md R162). -/
theorem bitStringElem_of_not_mem_spaceIndices (cfg : Config) (word : Word) {i : Nat} (hi : i ≤ 70)
    (hsp : i ∉ spaceIndices) :
    bitStringElem cfg word i = if word.getLsbD (digitBit i) then cfg.chOne else cfg.chZero := by
  rw [mem_spaceIndices_iff hi] at hsp
  rw [bitStringElem, if_neg (by omega), if_neg hsp]

/-- An index of 0..70 shows a space or a digit, and which of the two does not depend on the word. -/
theorem bitStringElem_cases (cfg : Config) (word : Word) {i : Nat} (hi : i ≤ 70) :
    (i ∈ spaceIndices ∧ bitStringElem cfg word i = cfg.chSpace) ∨
    (i ∉ spaceIndices ∧ (bitStringElem cfg word i = cfg.chZero ∨ bitStringElem cfg word i = cfg.chOne)) := by
  by_cases hsp : i ∈ spaceIndices
  · exact .inl ⟨hsp, bitStringElem_space cfg word (by omega) ((mem_spaceIndices_iff hi).mp hsp)⟩
  · refine .inr ⟨hsp, ?_⟩
    rw [bitStringElem_of_not_mem_spaceIndices cfg word hi hsp]
    split
    · exact .inr rfl
    · exact .inl rfl

/-! ## With distinct codes, what an index shows tells what it is (spec/44_bitstring_buffer.md R162) -/

section Shape

variable {cfg : Config} (hcfg : cfg.legal) (word : Word) {i : Nat} (hi : i ≤ 70)
include hcfg hi

theorem bitStringElem_eq_chSpace_iff : bitStringElem cfg word i = cfg.chSpace ↔ i ∈ spaceIndices := by
  obtain ⟨-, -, -, hzs, -, hos, -, -⟩ := hcfg
  rcases bitStringElem_cases cfg word hi with ⟨hsp, he⟩ | ⟨hsp, he | he⟩
  · simp [hsp, he]
  · simp [hsp, he, hzs]
  · simp [hsp, he, hos]

theorem bitStringElem_eq_digit_iff :
    bitStringElem cfg word i = cfg.chZero ∨ bitStringElem cfg word i = cfg.chOne ↔ i ∉ spaceIndices := by
  obtain ⟨-, -, -, hzs, -, hos, -, -⟩ := hcfg
  rcases bitStringElem_cases cfg word hi with ⟨hsp, he⟩ | ⟨hsp, he⟩
  · simp [hsp, he, hzs.symm, hos.symm]
  · simp [hsp, he]

theorem bitStringElem_ne_chTerm : bitStringElem cfg word i ≠ cfg.chTerm := by
  obtain ⟨-, -, -, -, hzt, -, hot, hst⟩ := hcfg
  rcases bitStringElem_cases cfg word hi with ⟨-, he⟩ | ⟨-, he | he⟩
  · rwa [he]
  · rwa [he]
  · rwa [he]

end Shape

/-- The word of the example of spec/44_bitstring_buffer.md R160, rendered: 71 characters and the terminator. -/
theorem bitString_of_example :
    (List.range 72).map (fun i => some (bitStringElem Config.default 0xAABBCCDDEE001122#64 i)) =
      ("10101010 10111011 11001100 11011101 11101110 00000000 00010001 00100010".toList.map
        fun c => some (BitVec.ofNat 8 c.toNat)) ++ [some 0x00#8] := by
  decide

/-- Settles O36: what renderBits writes, read at the spaces, at the digits, at the terminator and at the example. -/
theorem renderBitsWritesTheBitString : Obligations.RenderBitsWritesTheBitString := by
  intro s word
  obtain ⟨t, hexec, htrace, hcfg, hmoves, hdraws, hstring, hkept⟩ :=
    (renderBits_repliesWriting word s).exists_writesBelow
  refine ⟨fun a b => decode_mkCommand_renderBits a b word, rfl, t, hexec, htrace, hcfg, hmoves, hdraws,
    fun i hi h8 => ?space, fun g p hg hp => ?digit, ?terminator, hkept, rfl, ?printed⟩
  case space => rw [hstring i (by omega), bitStringElem_space _ _ (by omega) h8]
  case digit => rw [hstring _ (by omega), bitStringElem_digit _ _ hp]
  case terminator => rw [hstring 71 (by decide), bitStringElem_term]
  case printed =>
    rintro rfl hdefault
    rw [← bitString_of_example, ← hdefault]
    exact List.map_congr_left fun i hi => hstring i (List.mem_range.mp hi)

/-- A test on the elements of the string, once it is known to be a test `q` on their indices. -/
theorem filter_string_congr {p : Nat → Bool} {q : Nat → Prop} [DecidablePred q]
    (h : ∀ i, i ≤ 70 → (p i = true ↔ q i)) :
    (List.range 71).filter p = (List.range 71).filter fun i => decide (q i) :=
  List.filter_congr fun i hi =>
    Bool.eq_iff_iff.mpr ((h i (Nat.le_of_lt_succ (List.mem_range.mp hi))).trans decide_eq_true_iff.symm)

/-- Settles O38: with distinct codes each element tells what its index is, so the counts are counts of indices. -/
theorem bitStringHasItsShape : Obligations.BitStringHasItsShape := by
  intro s word hlegal
  obtain ⟨t, hexec, -, -, -, -, hstring, -⟩ := (renderBits_repliesWriting word s).exists_writesBelow
  have hread : ∀ i, i ≤ 70 → t.buf.read i = some (bitStringElem s.cfg word i) := fun i hi => hstring i (by omega)
  have hspace : ∀ i, i ≤ 70 → (t.buf.read i = some s.cfg.chSpace ↔ i ∈ spaceIndices) := fun i hi => by
    rw [hread i hi, Option.some_inj, bitStringElem_eq_chSpace_iff hlegal word hi]
  have hdigit : ∀ i, i ≤ 70 →
      (t.buf.read i = some s.cfg.chZero ∨ t.buf.read i = some s.cfg.chOne ↔ i ∉ spaceIndices) := fun i hi => by
    rw [hread i hi, Option.some_inj, Option.some_inj, bitStringElem_eq_digit_iff hlegal word hi]
  refine ⟨t, hexec, hspace, fun i hi => (hdigit i hi).mpr, fun i hi => ?noTerm, ?term, ?spaces, ?digits, ?zero⟩
  case noTerm =>
    rw [hread i hi, Ne, Option.some_inj]
    exact bitStringElem_ne_chTerm hlegal word hi
  case term => rw [hstring 71 (by decide), bitStringElem_term]
  case spaces =>
    rw [filter_string_congr (q := (· ∈ spaceIndices)) fun i hi => by simpa using hspace i hi]
    decide
  case digits =>
    rw [filter_string_congr (q := (· ∉ spaceIndices)) fun i hi => by simpa using hdigit i hi]
    decide
  case zero =>
    rintro rfl i hi hsp
    rw [hread i hi, bitStringElem_of_not_mem_spaceIndices _ _ hi hsp]
    simp

/-- Settles O41: a size in its domain writes the elements below it and no more; the example runs the two operations in
turn, and the first leaves BUFLEN as it is. -/
theorem clearBufferZeroesThePrefix : Obligations.ClearBufferZeroesThePrefix := by
  refine ⟨fun a b w => decode_mkCommand_clearBuffer a b w, rfl,
    fun s size hbad => clearBuffer_replies_fault (bufSize?_eq_none hbad),
    fun s size hsize => (clearBuffer_repliesWriting_natCast hsize).exists_writesBelow, rfl, fun s hlegal => ?_⟩
  obtain ⟨t, hrender, -, hcfg, -, -, hstring, -⟩ :=
    (renderBits_repliesWriting 0xAABBCCDDEE001122#64 s).exists_writesBelow
  have hsize : 9 ≤ t.cfg.buflen := by
    rw [hcfg]
    exact le_trans (by decide) hlegal.1
  obtain ⟨u, hclear, -, -, -, -, hzero, hkept⟩ := (clearBuffer_repliesWriting_natCast hsize).exists_writesBelow
  refine ⟨t, u, hrender, hclear, fun a ha => hzero a (by omega), hkept, ?_⟩
  rw [hkept 71 (by decide), hstring 71 (by decide), bitStringElem_term]

end Sys2Proof.Machine

/-! # Faults (spec/60_exceptions.md) -/

namespace Sys2Proof.Machine

/-! ## The precondition decides between the two outcomes of an operation -/

/-- Where the precondition fails, the instruction raises InvalidArgument and changes nothing
(spec/60_exceptions.md R183). -/
theorem replies_fault_of_violates {i : Instr} {s : State} (h : Violates s.cfg i) :
    Replies i s (.fault .invalidArgument) := by
  cases i with
  | extractBits low high word => exact isRangeOperation_extractBits.replies_fault h word s
  | setBitRange low high word => exact isRangeOperation_setBitRange.replies_fault h word s
  | clearBitRange low high word => exact isRangeOperation_clearBitRange.replies_fault h word s
  | assignBit bitNum bitVal word => exact assignBit_replies_fault h word s
  | getByte byteIndex word => exact getByte_replies_fault h word s
  | putByte byteIndex byteVal word => exact putByte_replies_fault h byteVal word s
  | clearBuffer size => exact clearBuffer_replies_fault (bufSize?_eq_none h)
  | buildWord => cases h
  | isNegative => cases h
  | renderBits => cases h

theorem IsRangeOperation.exists_repliesWriting_ok {op : Int → Int → Word → Instr} {field : BitRange → Word → Word}
    (h : IsRangeOperation op field) {low high : Int} (hok : RangeOk low high) (word : Word) (s : State) :
    ∃ v content, RepliesWriting (op low high word) s (.ok v) content := by
  obtain ⟨h0, hle, h63⟩ := hok
  obtain ⟨r, hr, -, -⟩ := bitRange?_of_ok h0 hle h63
  exact ⟨_, _, (h.replies_of_eq_some hr word s).repliesWriting⟩

/-- Where the precondition holds, the instruction executes to an Ok response (spec/60_exceptions.md R183, R187). -/
theorem exists_repliesWriting_ok_of_not_violates {i : Instr} {s : State} (h : ¬ Violates s.cfg i) :
    ∃ v content, RepliesWriting i s (.ok v) content := by
  cases i with
  | extractBits low high word => exact isRangeOperation_extractBits.exists_repliesWriting_ok (not_not.mp h) word s
  | setBitRange low high word => exact isRangeOperation_setBitRange.exists_repliesWriting_ok (not_not.mp h) word s
  | clearBitRange low high word => exact isRangeOperation_clearBitRange.exists_repliesWriting_ok (not_not.mp h) word s
  | assignBit bitNum bitVal word =>
    obtain ⟨hnum, hval⟩ := not_or.mp h
    obtain ⟨h0, h63⟩ := not_not.mp hnum
    lift bitNum to ℕ using h0
    exact ⟨_, _, (assignBit_replies ⟨bitNum, by omega⟩ s (not_not.mp hval) rfl).repliesWriting⟩
  | getByte byteIndex word =>
    obtain ⟨h0, h7⟩ := not_not.mp h
    lift byteIndex to ℕ using h0
    exact ⟨_, _, (getByte_replies ⟨byteIndex, by omega⟩ s rfl).repliesWriting⟩
  | putByte byteIndex byteVal word =>
    obtain ⟨h0, h7⟩ := not_not.mp h
    lift byteIndex to ℕ using h0
    exact ⟨_, _, (putByte_replies ⟨byteIndex, by omega⟩ s rfl).repliesWriting⟩
  | buildWord => exact ⟨_, _, (buildWord_replies rfl s).repliesWriting⟩
  | isNegative word => exact ⟨_, _, (isNegative_replies rfl s).repliesWriting⟩
  | renderBits word => exact ⟨_, _, renderBits_repliesWriting word s⟩
  | clearBuffer size =>
    obtain ⟨h0, hle⟩ := not_not.mp h
    exact ⟨_, _, clearBuffer_repliesWriting (bufSize?_of_ok h0 hle)⟩

/-! ## The table's field column: the 8-bit fields read unsigned -/

/-- Two fields are no range as integers exactly where the table's field column says (spec/60_exceptions.md R183). -/
theorem not_rangeOk_sext_iff (a b : Byte) : ¬ RangeOk (sext a) (sext b) ↔ b.toNat < a.toNat ∨ 0x3F < b.toNat := by
  rw [sext, sext, rangeOk_toInt_iff, not_and_or, not_le, not_le]

/-- A field as an integer is outside 0..n, with n below 128, exactly where the field read unsigned is above n: a negative
operand reads above 127 unsigned (spec/60_exceptions.md R183). -/
theorem not_sext_mem_iff (f : Byte) {n : Nat} (hn : n ≤ 127) : ¬ (0 ≤ sext f ∧ sext f ≤ n) ↔ n < f.toNat := by
  have hf := f.isLt
  rw [sext, BitVec.toInt_eq_toNat_cond]
  split <;> omega

/-- The bit values 0 and 1 as a field (spec/60_exceptions.md R183). -/
theorem not_sext_eq_zero_or_one_iff (f : Byte) : ¬ (sext f = 0 ∨ sext f = 1) ↔ 0x01 < f.toNat := by
  have hmem := not_sext_mem_iff f (n := 1) (by decide)
  omega

/-- Settles O45: on integers by the two outcomes of an operation, on fields row by row of the decoder's table. -/
theorem invalidArgumentExactlyOnTheTable : Obligations.InvalidArgumentExactlyOnTheTable := by
  refine ⟨fun i s => ⟨replies_fault_of_violates, fun hok => ?integers⟩, fun cfg c i hlegal hdec => ?fields⟩
  case integers =>
    obtain ⟨v, -, t, hexec, htrace, -⟩ := exists_repliesWriting_ok_of_not_violates hok
    exact ⟨t, v, hexec, htrace⟩
  case fields =>
    obtain ⟨-, hbuflen, -⟩ := hlegal
    induction c using command_cases with
    | reserved op a b w hop => rw [decode_mkCommand_reserved _ _ _ hop] at hdec; cases hdec
    | _ a b w =>
      obtain rfl : _ = i := by simpa using hdec
      have hbitNum : ¬ (0 ≤ sext a ∧ sext a ≤ 63) ↔ 0x3F < a.toNat := not_sext_mem_iff a (by decide)
      have hbyteIndex : ¬ (0 ≤ sext a ∧ sext a ≤ 7) ↔ 0x07 < a.toNat := not_sext_mem_iff a (by decide)
      have hsize : ¬ (0 ≤ sext a ∧ sext a ≤ cfg.buflen) ↔ cfg.buflen < a.toNat := not_sext_mem_iff a hbuflen
      simp only [Violates, opField_mkCommand, aField_mkCommand, bField_mkCommand, not_rangeOk_sext_iff,
        not_sext_eq_zero_or_one_iff, hbitNum, hbyteIndex, hsize]
      simp

/-! ## A whole transaction: a fault with no effect, or an Ok response -/

/-- All that a transaction can do, by its response: on a fault the record is all that changes. -/
theorem transact_outcomes (c : Command) (s : State) :
    (∃ code, transact c s = .next (s.raise code)) ∨ ∃ v content, TransactsWriting c s (.ok v) content := by
  cases hdec : decode c with
  | error e => exact .inl ⟨_, transact_of_decode_error hdec s⟩
  | ok i =>
    by_cases hv : Violates s.cfg i
    · exact .inl ⟨_, (transact_of_decode_ok hdec s).trans (replies_fault_of_violates hv)⟩
    · obtain ⟨v, content, hok⟩ := exists_repliesWriting_ok_of_not_violates hv
      exact .inr ⟨v, content, hok.transactsWriting hdec⟩

/-- Settles O47: the response in the record tells which of the two outcomes happened, and a fault is `State.raise`. -/
theorem faultingCommandHasNoEffect : Obligations.FaultingCommandHasNoEffect := by
  intro s t c code hnext htrace
  rcases transact_outcomes c s with ⟨code', hraise⟩ | ⟨v, -, u, hok, hoktrace, -⟩
  · obtain rfl : s.raise code' = t := by simpa [hraise] using hnext
    obtain rfl : code' = code := by simpa using htrace
    exact ⟨rfl, fun _ => rfl, rfl⟩
  · obtain rfl : u = t := by simpa [hok] using hnext
    simp [hoktrace] at htrace

/-- Settles O46: `ReservedOp` decides whether there is an instruction, then `Violates` whether it executes. -/
theorem opcodeIsTestedFirst : Obligations.OpcodeIsTestedFirst := by
  intro s c rest hs
  by_cases hop : ReservedOp (opField c)
  · exact .inl ⟨by unfold ReservedOp at hop; bv_omega, step_of_reservedOp hop hs⟩
  · obtain ⟨hlow, hhigh⟩ : 1 ≤ (opField c).toNat ∧ (opField c).toNat ≤ 0x0A := by unfold ReservedOp at hop; bv_omega
    obtain ⟨i, hdec⟩ := exists_decode_of_not_reservedOp hop
    have hstep : step s = exec i { s with moves := rest } :=
      (step_move hs).trans (transact_of_decode_ok hdec _)
    by_cases hv : Violates s.cfg i
    · exact .inr (.inl ⟨hlow, hhigh, i, hdec, op_of_decode hdec, hv, hstep.trans (replies_fault_of_violates hv)⟩)
    · obtain ⟨v, -, t, hexec, htrace, -, hmoves, -⟩ :=
        exists_repliesWriting_ok_of_not_violates (s := { s with moves := rest }) hv
      exact .inr (.inr ⟨hlow, hhigh, i, t, v, hdec, op_of_decode hdec, hv, hstep.trans hexec, hmoves, htrace⟩)

end Sys2Proof.Machine

/-! # The moves of the host, one step at a time and along a run -/

namespace Sys2Proof.Machine

/-! ## A transaction, by what it leaves in the state -/

/-- The transaction of `c` writes the first `writtenBy` elements of BUF, by one `writePrefix`, and keeps the
parameters. -/
def WritesPrefix (c : Command) (s : State) : Prop :=
  ∃ (t : State) (f : Nat → Byte), transact c s = .next t ∧ t.cfg = s.cfg ∧
    t.buf = s.buf.writePrefix (writtenBy s.cfg c) f

theorem writesPrefix_of_writtenBy_eq_zero {c : Command} {s : State} {r : Response} (h : writtenBy s.cfg c = 0)
    (hnext : transact c s = .next (s.emit (.response r))) : WritesPrefix c s :=
  ⟨_, fun _ => 0#8, hnext, rfl, by rw [h, Memory.writePrefix_zero, State.emit_buf]⟩

theorem writesPrefix_of_neverWrites {c : Command} {i : Instr} (s : State) (h : decode c = .ok i)
    (hi : neverWrites i = true) : WritesPrefix c s := by
  obtain ⟨r, hr⟩ := exists_replies_of_neverWrites hi
  exact writesPrefix_of_writtenBy_eq_zero (writtenBy_of_neverWrites h hi) ((transact_of_decode_ok h s).trans (hr s))

theorem writesPrefix_of_renderBits {c : Command} {word : Word} (s : State) (h : decode c = .ok (.renderBits word)) :
    WritesPrefix c s := by
  obtain ⟨t, hexec, -, hcfg, -, -, hbuf, -⟩ := execRenderBits_spec word s
  exact ⟨t, _, (transact_of_decode_ok h s).trans hexec, hcfg, by simpa [writtenBy, h] using hbuf⟩

theorem writesPrefix_of_clearBuffer {c : Command} {size : Int} (s : State) (h : decode c = .ok (.clearBuffer size)) :
    WritesPrefix c s := by
  cases hn : bufSize? s.cfg size with
  | none =>
    exact writesPrefix_of_writtenBy_eq_zero (writtenBy_clearBuffer_of_eq_none h hn)
      ((transact_of_decode_ok h s).trans (clearBuffer_replies_fault hn))
  | some n =>
    refine ⟨_, fun _ => 0x00#8, (transact_of_decode_ok h s).trans (State.checked_of_eq_some _ hn), rfl, ?_⟩
    rw [writtenBy_clearBuffer_of_eq_some h hn, State.answer_buf, State.withBuf_buf]

/-- Every command does so, whatever its word (spec/10_state.md R26). -/
theorem writesPrefix (c : Command) (s : State) : WritesPrefix c s := by
  cases hdec : decode c with
  | error e => exact writesPrefix_of_writtenBy_eq_zero (writtenBy_of_decode_error hdec) (transact_of_decode_error hdec s)
  | ok i =>
    cases i with
    | renderBits word => exact writesPrefix_of_renderBits s hdec
    | clearBuffer size => exact writesPrefix_of_clearBuffer s hdec
    | _ => exact writesPrefix_of_neverWrites s hdec rfl

/-- No command writes past the end of a buffer that holds a bit-string (spec/20_memory.md R40). -/
theorem writtenBy_le_buflen {cfg : Config} (h : 72 ≤ cfg.buflen) (c : Command) : writtenBy cfg c ≤ cfg.buflen := by
  unfold writtenBy
  split
  · exact h
  · split <;> omega
  · omega

/-- All that a transaction does, in the terms of a run: one response, the writes of `writesTo`, nothing else. -/
theorem exists_transact (c : Command) (s : State) : ∃ (t : State) (r : Response), transact c s = .next t ∧
    t.trace = s.trace ++ [.response r] ∧ t.cfg = s.cfg ∧ t.moves = s.moves ∧
    ∀ a, t.buf.read a = (writesTo s.cfg c a).or (s.buf.read a) := by
  obtain ⟨r, hr⟩ := exists_respondsAlways s.cfg c
  obtain ⟨t, hnext, htrace, hcfg, hmoves, -, hread⟩ := hr s rfl
  exact ⟨t, r, hnext, htrace, hcfg, hmoves, hread⟩

/-- Settles O44: the elements written are those below `writtenBy`, and that is at most BUFLEN. -/
theorem commandsFormNoMissingIndex : Obligations.CommandsFormNoMissingIndex := by
  intro s c hlegal
  have hle : writtenBy s.cfg c ≤ s.cfg.buflen := writtenBy_le_buflen hlegal.1 c
  obtain ⟨t, f, hnext, -, hbuf⟩ := writesPrefix c s
  refine ⟨t, hnext, fun a ha => ?_, fun hbelow => ?_⟩
  · rw [hbuf, Memory.read_writePrefix, if_neg (by omega)]
  · rw [hbuf]
    exact Memory.below_writePrefix f hle hbelow

/-! ## The invariant -/

theorem transact_keeps_inv {c : Command} {s t : State} (hinv : s.inv) (hnext : transact c s = .next t) : t.inv := by
  obtain ⟨hlegal, hwf, hbelow⟩ := hinv
  obtain ⟨t', f, hnext', hcfg, hbuf⟩ := writesPrefix c s
  obtain rfl : t' = t := by simpa [hnext'] using hnext
  rw [State.inv, hcfg, hbuf]
  exact ⟨hlegal, Memory.wf_writePrefix _ f hwf, Memory.below_writePrefix f (writtenBy_le_buflen hlegal.1 c) hbelow⟩

theorem hostRead_keeps_inv {i : Nat} {s t : State} (hinv : s.inv) (hnext : hostRead i s = .next t) : t.inv := by
  by_cases hi : i < s.cfg.buflen
  · rcases hostRead_cases hi with ⟨v, -, hread⟩ | ⟨-, hread⟩
    · obtain rfl : _ = t := by simpa [hread] using hnext
      exact hinv
    · obtain rfl : _ = t := by simpa [hread] using hnext
      exact hinv
  · simp [hostRead_missing hi] at hnext

theorem hostWrite_keeps_inv {i : Nat} {v : Byte} {s t : State} (hinv : s.inv) (hnext : hostWrite i v s = .next t) :
    t.inv := by
  obtain ⟨hlegal, hwf, hbelow⟩ := hinv
  by_cases hi : i < s.cfg.buflen
  · obtain rfl : _ = t := by simpa [hostWrite_existing hi] using hnext
    exact ⟨hlegal, Memory.wf_write i v hwf, Memory.below_write v hi hbelow⟩
  · simp [hostWrite_missing hi] at hnext

theorem takeReset_keeps_inv {e : Option Command} {s t : State} (hinv : s.inv) (hnext : takeReset e s = .next t) :
    t.inv := by
  obtain rfl : _ = t := by simpa [takeReset_eq] using hnext
  obtain ⟨hlegal, -, -⟩ := hinv
  exact ⟨hlegal, rfl, rfl⟩

theorem perform_keeps_inv {m : HostMove} {s t : State} (hinv : s.inv) (hnext : perform m s = .next t) : t.inv := by
  cases m with
  | present c => exact transact_keeps_inv hinv hnext
  | read i => exact hostRead_keeps_inv hinv hnext
  | write i v => exact hostWrite_keeps_inv hinv hnext
  | reset e => exact takeReset_keeps_inv (e := e) hinv hnext

/-- Settles O57: every host move keeps the invariant, which does not speak of the moves still to come. -/
theorem stepKeepsTheInvariant : Obligations.StepKeepsTheInvariant := by
  intro s t hinv hnext
  cases hmoves : s.moves with
  | nil =>
    obtain rfl : s = t := by simpa [step_idle hmoves] using hnext
    exact hinv
  | cons m rest =>
    rw [step_move hmoves] at hnext
    exact perform_keeps_inv (s := { s with moves := rest }) hinv hnext

/-! ## One move that names an existing element -/

/-- `t` is `s` after the move `m`, as far as a run can tell: BUF as `valueAfterMove` says, and one event in the record
exactly where the move returns one (spec/20_memory.md R49). -/
structure AfterMove (m : HostMove) (s t : State) : Prop where
  cfg_eq : t.cfg = s.cfg
  read_eq : ∀ a, t.buf.read a = valueAfterMove s.cfg a (s.buf.read a) m
  trace_eq_of_returns : m.returns = true → ∃ e, t.trace = s.trace ++ [e]
  trace_eq_of_not_returns : m.returns = false → t.trace = s.trace

/-- All that a host read of an existing element does: it gives the value that stands there, or some value and a draw. -/
theorem exists_hostRead {i : Nat} {s : State} (hi : i < s.cfg.buflen) : ∃ (t : State) (v : Byte),
    hostRead i s = .next t ∧ t.trace = s.trace ++ [.read i v] ∧ t.cfg = s.cfg ∧ t.moves = s.moves ∧ t.buf = s.buf ∧
    (∀ w, s.buf.read i = some w → v = w) ∧ (s.buf.read i = none → t.draws = s.draws + 1) := by
  rcases hostRead_cases hi with ⟨v, hv, hread⟩ | ⟨hnone, hread⟩
  · exact ⟨_, v, hread, rfl, rfl, rfl, rfl, by simp [hv], by simp [hv]⟩
  · exact ⟨_, _, hread, rfl, rfl, rfl, rfl, by simp [hnone], fun _ => rfl⟩

theorem exists_perform_of_inRange {m : HostMove} {s : State} (h : m.inRange s.cfg.buflen) :
    ∃ t, perform m s = .next t ∧ t.moves = s.moves ∧ AfterMove m s t := by
  cases m with
  | present c =>
    obtain ⟨t, r, hnext, htrace, hcfg, hmoves, hread⟩ := exists_transact c s
    exact ⟨t, hnext, hmoves, hcfg, hread, fun _ => ⟨_, htrace⟩, nofun⟩
  | read i =>
    obtain ⟨t, v, hnext, htrace, hcfg, hmoves, hbuf, -, -⟩ := exists_hostRead (i := i) h
    exact ⟨t, hnext, hmoves, hcfg, fun a => by rw [hbuf, valueAfterMove], fun _ => ⟨_, htrace⟩, nofun⟩
  | write i v =>
    exact ⟨_, hostWrite_existing h, rfl, rfl, fun a => Memory.read_write s.buf i a v, nofun, fun _ => rfl⟩
  | reset e => exact ⟨_, takeReset_eq e s, rfl, rfl, fun a => rfl, nofun, fun _ => rfl⟩

/-- A move that names no existing element stops the machine (log 8). -/
theorem exists_perform_eq_fault {m : HostMove} {s : State} (h : ¬ m.inRange s.cfg.buflen) :
    ∃ i, s.cfg.buflen ≤ i ∧ perform m s = .fault (.noSuchElement i) := by
  cases m with
  | present c => exact absurd trivial h
  | read i => exact ⟨i, Nat.le_of_not_lt h, hostRead_missing h⟩
  | write i v => exact ⟨i, Nat.le_of_not_lt h, hostWrite_missing h⟩
  | reset e => exact absurd trivial h

theorem exists_step_of_inRange {s : State} {m : HostMove} {rest : List HostMove} (hmoves : s.moves = m :: rest)
    (h : m.inRange s.cfg.buflen) : ∃ t, step s = .next t ∧ t.moves = rest ∧ AfterMove m s t := by
  obtain ⟨t, hnext, hrest, hcfg, hread, hreturns, hsilent⟩ :=
    exists_perform_of_inRange (s := { s with moves := rest }) h
  exact ⟨t, (step_move hmoves).trans hnext, hrest, hcfg, hread, hreturns, hsilent⟩

/-- A step that goes on is idle or is a move that names an existing element. -/
theorem step_eq_next_cases {s t : State} (hnext : step s = .next t) :
    t = s ∨ ∃ m rest, s.moves = m :: rest ∧ AfterMove m s t := by
  cases hmoves : s.moves with
  | nil => exact .inl (by simpa [step_idle hmoves, eq_comm] using hnext)
  | cons m rest =>
    by_cases hm : m.inRange s.cfg.buflen
    · obtain ⟨t', hnext', -, hafter⟩ := exists_step_of_inRange hmoves hm
      obtain rfl : t' = t := by simpa [hnext'] using hnext
      exact .inr ⟨m, rest, rfl, hafter⟩
    · obtain ⟨i, -, hfault⟩ := exists_perform_eq_fault (s := { s with moves := rest }) hm
      simp [step_move hmoves, hfault] at hnext

/-- Settles O55: a move in range goes on by `exists_step_of_inRange`, every other is a fault. -/
theorem stepStopsOnlyOnAMissingElement : Obligations.StepStopsOnlyOnAMissingElement := by
  refine fun s => ⟨step_idle, fun m rest hmoves => ⟨fun hm => ?_, fun hm => ?_⟩⟩
  · obtain ⟨t, hnext, hrest, -⟩ := exists_step_of_inRange hmoves hm
    exact ⟨t, hnext, hrest⟩
  · rw [step_move hmoves]
    exact exists_perform_eq_fault (s := { s with moves := rest }) hm

theorem AfterMove.trace_cases {m : HostMove} {s t : State} (h : AfterMove m s t) :
    t.trace = s.trace ∨ ∃ e, t.trace = s.trace ++ [e] := by
  cases hm : m.returns with
  | true => exact .inr (h.trace_eq_of_returns hm)
  | false => exact .inl (h.trace_eq_of_not_returns hm)

theorem faulted_of_trace_eq_append {s t : State} {es : List Event} (h : t.trace = s.trace ++ es)
    (hs : s.faulted = true) : t.faulted = true := by
  rw [State.faulted, h, List.any_append, Bool.or_eq_true]
  exact .inl hs

/-- Settles O56: every step that goes on appends at most one event, so no fault leaves the record. -/
theorem recordOnlyGrows : Obligations.RecordOnlyGrows := by
  intro s t hnext
  rcases step_eq_next_cases hnext with rfl | ⟨m, rest, -, hafter⟩
  · exact ⟨rfl, .inl rfl, id⟩
  · refine ⟨hafter.cfg_eq, hafter.trace_cases, ?_⟩
    rcases hafter.trace_cases with htrace | ⟨e, htrace⟩
    · exact faulted_of_trace_eq_append (es := []) (by rw [htrace, List.append_nil])
    · exact faulted_of_trace_eq_append htrace

/-! ## The reads of the host -/

theorem exists_step_read {s : State} {i : Nat} {rest : List HostMove} (hmoves : s.moves = .read i :: rest)
    (hi : i < s.cfg.buflen) : ∃ (t : State) (v : Byte),
    step s = .next t ∧ t.trace = s.trace ++ [.read i v] ∧ t.cfg = s.cfg ∧ t.moves = rest ∧ t.buf = s.buf ∧
    (∀ w, s.buf.read i = some w → v = w) ∧ (s.buf.read i = none → t.draws = s.draws + 1) := by
  rw [step_move hmoves]
  exact exists_hostRead (s := { s with moves := rest }) hi

/-- Settles O54, by the read of an element with no value. -/
theorem hostReadOfAnUnwrittenElementGoesOn : Obligations.HostReadOfAnUnwrittenElementGoesOn := by
  intro s i rest hmoves hi hnone
  obtain ⟨t, v, hnext, htrace, hcfg, hrest, hbuf, -, hdraws⟩ := exists_step_read hmoves hi
  exact ⟨t, v, hnext, htrace, hcfg, hrest, fun a => by rw [hbuf], hdraws hnone⟩

/-- Settles O53: the reset move empties BUF and touches nothing else. -/
theorem resetLeavesBufUnspecified : Obligations.ResetLeavesBufUnspecified := by
  intro s executing rest hmoves
  exact ⟨_, (step_move hmoves).trans (takeReset_eq executing _), fun a => Memory.read_nil a, rfl, rfl, rfl, rfl⟩

/-! ## Runs -/

theorem run_succ {M : Host.Core} {s t : M.State} (h : M.step s = .next t) (k : Nat) : M.run (k + 1) s = M.run k t := by
  rw [Host.Core.run, h]

/-- The same of this machine, whose states and step are `State` and `step`. -/
theorem run_succ_of_step {s t : State} (h : step s = .next t) (k : Nat) :
    Host.Core.run core (k + 1) s = Host.Core.run core k t := run_succ (M := core) h k

theorem latestWrite_cons (cfg : Config) (m : HostMove) (ms : List HostMove) (a : Nat) (start : Option Byte) :
    latestWrite cfg (m :: ms) a start = latestWrite cfg ms a (valueAfterMove cfg a start m) := rfl

theorem AfterMove.length_trace {m : HostMove} {s t : State} (h : AfterMove m s t) :
    t.trace.length = s.trace.length + [m].countP HostMove.returns := by
  cases hm : m.returns with
  | true =>
    obtain ⟨e, htrace⟩ := h.trace_eq_of_returns hm
    simp [htrace, hm]
  | false => simp [h.trace_eq_of_not_returns hm, hm]

/-- `t` is `s` after the moves `ms`, as far as a later move can tell (spec/20_memory.md R49). -/
structure AfterMoves (ms : List HostMove) (s t : State) : Prop where
  cfg_eq : t.cfg = s.cfg
  read_eq : ∀ a, t.buf.read a = latestWrite s.cfg ms a (s.buf.read a)
  length_trace : t.trace.length = s.trace.length + ms.countP HostMove.returns

theorem AfterMoves.cons {m : HostMove} {ms : List HostMove} {s t u : State} (h : AfterMove m s t)
    (hs : AfterMoves ms t u) : AfterMoves (m :: ms) s u where
  cfg_eq := hs.cfg_eq.trans h.cfg_eq
  read_eq a := by rw [hs.read_eq, h.cfg_eq, h.read_eq, latestWrite_cons]
  length_trace := by
    rw [hs.length_trace, h.length_trace, ← List.singleton_append (l := ms), List.countP_append, Nat.add_assoc]

/-- The run goes through, move by move, and what one move leaves is what the next starts from. -/
theorem exists_run_of_inRange {s : State} {ms rest : List HostMove} (hmoves : s.moves = ms ++ rest)
    (hms : ∀ m ∈ ms, m.inRange s.cfg.buflen) :
    ∃ t, Host.Core.run Sys2Proof.core ms.length s = .next t ∧ t.moves = rest ∧ AfterMoves ms s t := by
  induction ms generalizing s with
  | nil => exact ⟨s, rfl, hmoves, rfl, fun _ => rfl, rfl⟩
  | cons m ms ih =>
    obtain ⟨hm, hms⟩ := List.forall_mem_cons.mp hms
    obtain ⟨t, hnext, htail, hafter⟩ := exists_step_of_inRange hmoves hm
    rw [← hafter.cfg_eq] at hms
    obtain ⟨u, hrun, hrest, hafters⟩ := ih htail hms
    exact ⟨u, (run_succ_of_step hnext _).trans hrun, hrest, .cons hafter hafters⟩

/-- Settles O58: by induction on the moves; the read that follows the run finds BUF as `latestWrite` says. -/
theorem runsAreSequentiallyConsistent : Obligations.RunsAreSequentiallyConsistent := by
  intro s ms rest hmoves hms
  obtain ⟨t, hrun, hrest, hafter⟩ := exists_run_of_inRange hmoves hms
  refine ⟨t, hrun, hrest, hafter.cfg_eq, hafter.read_eq, hafter.length_trace, ?written, ?unwritten⟩
  case written =>
    intro i later v hread hi hlatest
    obtain ⟨u, v', hnext, htrace, -, hlater, -, hvalue, -⟩ :=
      exists_step_read (hrest.trans hread) (by rwa [hafter.cfg_eq])
    obtain rfl := hvalue v ((hafter.read_eq i).trans hlatest)
    exact ⟨u, hnext, htrace, hlater⟩
  case unwritten =>
    intro i later hread hi _
    obtain ⟨u, v, hnext, htrace, -, hlater, -⟩ := exists_step_read (hrest.trans hread) (by rwa [hafter.cfg_eq])
    exact ⟨u, v, hnext, htrace, hlater⟩

/-! ## Commands in a run -/

/-- Settles O50, by the one response of a transaction. -/
theorem everyCommandGetsAResponse : Obligations.EveryCommandGetsAResponse := by
  intro s c rest hmoves
  obtain ⟨t, r, hnext, htrace, -, hrest, -⟩ := exists_transact c { s with moves := rest }
  exact ⟨t, r, (step_move hmoves).trans hnext, htrace, hrest⟩

/-- Two commands in turn give the two responses that each gives in any state, and BUF gets both their writes, the later
ones on top. -/
theorem exists_run_two {s : State} {c d : Command} {q r : Response} (hc : RespondsAlways s.cfg c q)
    (hd : RespondsAlways s.cfg d r) (rest : List HostMove) : ∃ t,
    Host.Core.run Sys2Proof.core 2 { s with moves := .present c :: .present d :: rest } = .next t ∧
    t.trace = s.trace ++ [.response q, .response r] ∧
    ∀ a, t.buf.read a = (writesTo s.cfg d a).or ((writesTo s.cfg c a).or (s.buf.read a)) := by
  obtain ⟨t, hnext, htrace, hcfg, hmoves, -, hread⟩ := hc { s with moves := .present d :: rest } rfl
  obtain ⟨u, hnext', htrace', -, -, -, hread'⟩ := hd { t with moves := rest } hcfg
  have hfirst : step { s with moves := .present c :: .present d :: rest } = .next t := hnext
  have hsecond : step t = .next u := (step_move hmoves).trans hnext'
  refine ⟨u, ?_, by simp [htrace', htrace], fun a => by simp only [hread', hread]⟩
  exact (run_succ_of_step hfirst 1).trans (run_succ_of_step hsecond 0)

/-- Settles O52: the two runs differ in the order of the writes alone, and a command that writes nothing has no place in
that order. -/
theorem commandsCanBeReordered : Obligations.CommandsCanBeReordered := by
  intro s c d rest
  obtain ⟨q, hc⟩ := exists_respondsAlways s.cfg c
  obtain ⟨r, hd⟩ := exists_respondsAlways s.cfg d
  obtain ⟨t, hrun, htrace, hread⟩ := exists_run_two hc hd rest
  obtain ⟨u, hrun', htrace', hread'⟩ := exists_run_two hd hc rest
  refine ⟨q, r, t, u, hrun, hrun', htrace, htrace', fun hwrites a => ?_⟩
  rw [hread, hread']
  rcases hwrites with h | h
  · simp [writesTo_of_writtenBy_eq_zero h]
  · simp [writesTo_of_writtenBy_eq_zero h]

/-- Settles O48: the fault leaves parameters and BUF as they were, and a command depends on nothing else. -/
theorem nextCommandAfterAFaultRunsNormally : Obligations.NextCommandAfterAFaultRunsNormally := by
  intro s t bad c code hnext htrace
  obtain ⟨rfl, -, -⟩ := faultingCommandHasNoEffect s t bad code hnext htrace
  obtain ⟨r, hr⟩ := exists_respondsAlways s.cfg c
  exact ⟨r, _, hr s rfl, hr _ rfl⟩

/-! ## The operations that touch nothing, and those that never fault (spec/10_state.md R26, spec/60_exceptions.md R191) -/

/-- Settles O35, by the one response of an operation that writes nothing. -/
theorem wordOperationsTouchNothing : Obligations.WordOperationsTouchNothing := by
  intro i s hi
  obtain ⟨r, hr⟩ := exists_replies_of_neverWrites hi
  exact ⟨r, (hr s).repliesWriting⟩

/-- A fault response says that the precondition fails, and the other way round. -/
theorem replies_fault_iff {i : Instr} {s : State} {code : FaultCode} :
    Replies i s (.fault code) ↔ Violates s.cfg i ∧ code = .invalidArgument := by
  constructor
  · intro hfault
    by_cases hv : Violates s.cfg i
    · refine ⟨hv, ?_⟩
      have heq := hfault.symm.trans (replies_fault_of_violates hv)
      simpa using heq
    · obtain ⟨v, -, t, hexec, htrace, -⟩ := exists_repliesWriting_ok_of_not_violates hv
      obtain rfl : _ = t := by simpa using hfault.symm.trans hexec
      simp at htrace
  · rintro ⟨hv, rfl⟩
    exact replies_fault_of_violates hv

/-- Settles O49: whether an instruction faults is `Violates`, which reads neither a word nor byteVal. -/
theorem operationsThatNeverFault : Obligations.OperationsThatNeverFault := by
  refine ⟨fun s b0 b1 b2 b3 b4 b5 b6 b7 word => ?_, fun s x y b b' w w' code => ?_⟩
  · obtain ⟨t, hexec, htrace, -⟩ := renderBits_repliesWriting word s
    exact ⟨_, _, t, _, _, _, buildWord_replies rfl s, rfl, isNegative_replies rfl s, rfl, hexec, htrace⟩
  · simp only [replies_fault_iff, Violates, imp_self, and_self]

end Sys2Proof.Machine

/-! # Encoding, decoding and the assembler (spec/30_encoding.md) -/

namespace Sys2Proof.Machine

/-! ## buildWord and byte decomposition invert each other -/

/-- The loop of buildWord makes the W field that carries its operands (spec/30_encoding.md R73, spec/42_byte.md R137):
the two have the same bytes, and a word is made of its bytes. -/
theorem combineBytes_eq_wordOfBytes (b0 b1 b2 b3 b4 b5 b6 b7 : Byte) :
    combineBytes b0 b1 b2 b3 b4 b5 b6 b7 = wordOfBytes b0 b1 b2 b3 b4 b5 b6 b7 := by
  obtain ⟨w, hw⟩ : ∃ w, combineBytes b0 b1 b2 b3 b4 b5 b6 b7 = w := ⟨_, rfl⟩
  obtain ⟨rfl, rfl, rfl, rfl, rfl, rfl, rfl, rfl⟩ := byteField_of_combineBytes_eq hw
  rw [hw, wordOfBytes_byteField]

theorem combineBytes_byteField (w : Word) :
    combineBytes (byteField w 0) (byteField w 1) (byteField w 2) (byteField w 3)
      (byteField w 4) (byteField w 5) (byteField w 6) (byteField w 7) = w := by
  rw [combineBytes_eq_wordOfBytes, wordOfBytes_byteField]

/-! ## Round trips -/

/-- Settles O6: each row of the decoder's table reads back the fields that the encoder wrote, a small operand by
`sext_smallField` and the bytes of buildWord by the loop that makes W. -/
theorem decodeInvertsEncode : Obligations.DecodeInvertsEncode := by
  intro i hwf
  cases i with
  | buildWord b0 b1 b2 b3 b4 b5 b6 b7 =>
    obtain ⟨h0, h1, h2, h3, h4, h5, h6, h7⟩ :=
      byteField_of_combineBytes_eq (combineBytes_eq_wordOfBytes b0 b1 b2 b3 b4 b5 b6 b7)
    simp [encode, Instr.op, Instr.a, Instr.b, Instr.w, h0, h1, h2, h3, h4, h5, h6, h7]
  | isNegative word => simp [encode, Instr.op, Instr.a, Instr.b, Instr.w]
  | renderBits word => simp [encode, Instr.op, Instr.a, Instr.b, Instr.w]
  | _ =>
    simp only [Instr.wf, Bool.and_eq_true] at hwf
    simp [encode, Instr.op, Instr.a, Instr.b, Instr.w, sext_smallField, hwf]

/-- A decoded instruction is well formed: a small operand is read from 8 bits (spec/30_encoding.md R62, R75). -/
theorem wf_of_decode {c : Command} {i : Instr} (h : decode c = .ok i) : i.wf = true := by
  induction c using command_cases with
  | reserved op a b w hop => rw [decode_mkCommand_reserved _ _ _ hop] at h; cases h
  | _ a b w =>
    obtain rfl : _ = i := by simpa using h
    simp [Instr.wf, smallOk_sext]

/-- Settles O1. -/
theorem stepRunsTheDecodedInstruction : Obligations.StepRunsTheDecodedInstruction := fun _ _ _ _ hmoves hdec =>
  ⟨wf_of_decode hdec, (step_move hmoves).trans (transact_of_decode_ok hdec _)⟩

/-- Settles O4, each word by evaluation of the decoder or the encoder. -/
theorem writtenOutWordsDecode : Obligations.WrittenOutWordsDecode := by
  unfold Obligations.WrittenOutWordsDecode
  decide

/-! ## The reset state -/

/-- Settles O2, by evaluation of the reset state. -/
theorem resetMeetsTheInvariant : Obligations.ResetMeetsTheInvariant := by
  unfold Obligations.ResetMeetsTheInvariant
  decide

/-- Settles O3: each field as `State.reset` gives it, and the empty BUF has no value anywhere. -/
theorem resetStateIsAsTheTableSays : Obligations.ResetStateIsAsTheTableSays :=
  ⟨Memory.read_nil, rfl, rfl, rfl, rfl, rfl, rfl, rfl, rfl⟩

/-! ## The response (spec/30_encoding.md R66 to R68) -/

theorem extractLsb'_status_wires (r : Response) (driven : Word) : (r.wires driven).extractLsb' 64 2 = r.status := by
  rw [Response.wires, BitVec.extractLsb'_append_eq_of_le (by decide)]
  exact BitVec.extractLsb'_eq_self

theorem extractLsb'_r_wires (r : Response) (driven : Word) :
    (r.wires driven).extractLsb' 0 64 = r.r.getD driven := by
  rw [Response.wires, BitVec.extractLsb'_append_eq_of_add_le (by decide)]
  exact BitVec.extractLsb'_eq_self

theorem Response.status_ne_three (r : Response) : r.status ≠ 3#2 := by
  cases r with
  | ok v => exact (by decide : (0#2 : BitVec 2) ≠ 3#2)
  | fault code =>
    cases code with
    | invalidArgument => decide
    | illegalCommand => decide

/-- R[7:0] holds the byte of a byte result, and R[63:8] is zero (spec/30_encoding.md R68). -/
theorem extractLsb'_toR_byte (b : Byte) :
    (Value.byte b).toR.extractLsb' 0 8 = b ∧ (Value.byte b).toR.extractLsb' 8 56 = 0#56 := by
  constructor
  · refine BitVec.eq_of_getLsbD_eq fun i hi => ?_
    simp [Value.toR, hi, show i < 64 by omega]
  · refine BitVec.eq_of_getLsbD_eq fun i hi => ?_
    simp [Value.toR]

/-- Settles O9: the two fields of the wires, then each kind of response and of value. -/
theorem responseFieldsAreAsEncoded : Obligations.ResponseFieldsAreAsEncoded := by
  refine ⟨fun r driven => ⟨extractLsb'_status_wires r driven, r.status_ne_three, ?ok, ?invalid, ?illegal, ?fault⟩,
    fun _ => rfl, extractLsb'_toR_byte, rfl, rfl, rfl⟩
  case ok => rintro v rfl; exact ⟨rfl, rfl, extractLsb'_r_wires _ driven⟩
  case invalid => rintro rfl; exact ⟨rfl, rfl⟩
  case illegal => rintro rfl; exact ⟨rfl, rfl⟩
  case fault => rintro code rfl; exact extractLsb'_r_wires _ driven

/-! ## The assembler (spec/30_encoding.md R69 to R71) -/

/-- What the encoder writes is canonical: its ignored fields are zero. -/
theorem canonical_encode (i : Instr) : canonical (encode i) = encode i := by
  cases i with
  | _ => simp [encode, Instr.op, Instr.a, Instr.b, Instr.w]

theorem not_reservedOp_op (i : Instr) : ¬ ReservedOp i.op := by
  cases i with
  | _ => simp only [Instr.op]; decide

/-- The encoding of any instruction, well formed or not, is the canonical word of the instruction that it decodes to. -/
theorem exists_decode_encode (i : Instr) : ∃ j, decode (encode i) = .ok j ∧ encode j = encode i := by
  have hop : ¬ ReservedOp (opField (encode i)) := by
    rw [encode, opField_mkCommand]
    exact not_reservedOp_op i
  obtain ⟨j, hj⟩ := exists_decode_of_not_reservedOp hop
  exact ⟨j, hj, (encode_of_decode hj).trans (canonical_encode i)⟩

theorem forall_mem_bne_of_not_mem {c : Char} {cs : List Char} (h : c ∉ cs) : ∀ d ∈ cs, (d != c) = true :=
  fun _ hd => bne_iff_ne.mpr (ne_of_mem_of_not_mem hd h)

/-- The assembler sees a line up to its comment. -/
theorem assembleLine_congr {line line' : List Char} (h : line.takeWhile (· != ';') = line'.takeWhile (· != ';')) :
    assembleLine line = assembleLine line' := by
  rw [assembleLine, assembleLine, h]

theorem assembleLine_append_comment {line : List Char} (comment : List Char) (h : ';' ∉ line) :
    assembleLine (line ++ ';' :: comment) = assembleLine line := by
  refine assembleLine_congr ?_
  have hline := forall_mem_bne_of_not_mem h
  rw [List.takeWhile_append_of_pos hline, List.takeWhile_eq_self_iff.mpr hline]
  simp

theorem assembleLine_of_not_mem {line : List Char} (h : '(' ∉ line) : assembleLine line = .error .notACall := by
  have htext : '(' ∉ trim (line.takeWhile (· != ';')) := fun hmem =>
    h ((List.takeWhile_sublist _).subset (trim_subset hmem))
  rw [assembleLine, List.dropWhile_eq_nil_iff.mpr (forall_mem_bne_of_not_mem htext)]

/-- The names of the ten operations, and no other (spec/30_encoding.md R70). -/
theorem call?_ne_none_iff (name : String) (ops : List Numeral) : call? name ops ≠ none ↔
    name ∈ ["extractBits", "setBitRange", "clearBitRange", "assignBit", "getByte", "putByte", "buildWord", "isNegative",
      "renderBits", "clearBuffer"] := by
  unfold call?
  split
  case h_11 => simp_all
  all_goals simp

theorem smallOperand?_dec_eq_none_iff (v : Int) : smallOperand? (.dec v) = none ↔ v < -128 ∨ 255 < v := by
  simp only [smallOperand?, ite_eq_right_iff, reduceCtorEq, imp_false]
  omega

theorem smallOperand?_hex_eq_none_iff (n v : Nat) : smallOperand? (.hex n v) = none ↔ 2 < n := by
  simp [smallOperand?]

theorem byteOperand?_eq_none_iff (n : Numeral) : byteOperand? n = none ↔ smallOperand? n = none :=
  Option.map_eq_none_iff

theorem wordOperand?_dec_eq_none_iff (v : Int) : wordOperand? (.dec v) = none ↔ v < 0 ∨ 2 ^ 64 ≤ v := by
  simp only [wordOperand?, ite_eq_right_iff, reduceCtorEq, imp_false]
  omega

theorem wordOperand?_hex_eq_none_iff (n v : Nat) : wordOperand? (.hex n v) = none ↔ 16 < n := by
  simp [wordOperand?]

/-- Settles O60: a line that assembles is an encoding, and the rest is one lemma for each reader. -/
theorem assemblerAcceptsOnlyCanonicalCommands : Obligations.AssemblerAcceptsOnlyCanonicalCommands := by
  refine ⟨fun line c hline => ?_, fun line comment => assembleLine_append_comment comment,
    fun line => assembleLine_of_not_mem, call?_ne_none_iff, fun v => ?_, fun n v => ?_⟩
  · obtain ⟨-, -, i, -, rfl⟩ := assembleLine_ok hline
    exact exists_decode_encode i
  · exact ⟨smallOperand?_dec_eq_none_iff v,
      (byteOperand?_eq_none_iff _).trans (smallOperand?_dec_eq_none_iff v), wordOperand?_dec_eq_none_iff v⟩
  · exact ⟨smallOperand?_hex_eq_none_iff n v,
      (byteOperand?_eq_none_iff _).trans (smallOperand?_hex_eq_none_iff n v), wordOperand?_hex_eq_none_iff n v⟩

/-- Settles O59, each line by evaluation of the assembler. -/
theorem assemblerEncodesTheSpecsLines : Obligations.AssemblerEncodesTheSpecsLines := by
  unfold Obligations.AssemblerEncodesTheSpecsLines
  decide

end Sys2Proof.Machine

/-! # The primitives and the laws of masks (spec/40_datapath_primitives.md) -/

namespace Sys2Proof.Machine

/-- Settles O10: AND, OR and NOT by their bits, the two shifts by their bits and as a product and a quotient. -/
theorem primitivesActBitByBit : Obligations.PrimitivesActBitByBit := by
  refine ⟨fun a b i hi => ?bits, fun a => BitVec.toNat_not, fun v n => ?shifts, fun v => ?zero, ?examples⟩
  case bits =>
    rw [getLsbD_wordAnd, getLsbD_wordOr, getLsbD_wordNot, decide_eq_true hi, Bool.true_and]
    exact ⟨rfl, rfl, rfl⟩
  case shifts =>
    refine ⟨?_, ?_, fun i hi => ?_, fun i _ => ?_⟩
    · rw [shl, BitVec.toNat_shiftLeft, Nat.shiftLeft_eq]
    · rw [shr, BitVec.toNat_ushiftRight, Nat.shiftRight_eq_div_pow]
    · rw [getLsbD_shl, decide_eq_true hi, Bool.true_and]
      split
      · next hn => simp [Nat.not_lt.mpr hn]
      · next hn => simp [Nat.lt_of_not_le hn]
    · rw [getLsbD_shr, Nat.add_comm]
      split
      · rfl
      · next hn => exact BitVec.getLsbD_of_ge v _ (by omega)
  case zero => exact ⟨BitVec.shiftLeft_zero v, BitVec.ushiftRight_zero v⟩
  case examples => decide

/-! ## MASK and ONES -/

theorem toNat_mask (r : BitRange) : (mask r).toNat = 2 ^ (r.high.val + 1) - 2 ^ r.low.val := by
  have hpow : 2 ^ (r.high.val + 1) ≤ 2 ^ 64 := Nat.pow_le_pow_right (by decide) r.high.isLt
  have hpos : 0 < 2 ^ r.low.val := Nat.two_pow_pos _
  rw [mask, BitVec.toNat_ofNat, Nat.mod_eq_of_lt (by omega)]

theorem toNat_ones {n : Nat} (hn : n ≤ 64) : (ones n).toNat = 2 ^ n - 1 := by
  have hpow : 2 ^ n ≤ 2 ^ 64 := Nat.pow_le_pow_right (by decide) hn
  rw [ones, BitVec.toNat_ofNat, Nat.mod_eq_of_lt (by omega)]

theorem mask_of_ends {r : BitRange} {low high : Nat} (hlow : r.low.val = low) (hhigh : r.high.val = high) :
    mask r = BitVec.ofNat 64 (2 ^ (high + 1) - 2 ^ low) := by rw [mask, hlow, hhigh]

/-- A mask without a 65-bit number: ones, moved to the low end (spec/40_datapath_primitives.md R95). -/
theorem mask_eq_shl_ones (r : BitRange) : mask r = shl (ones r.width) r.low := by
  have hle := r.low_val_le_high_val
  refine BitVec.eq_of_getLsbD_eq fun i hi => ?_
  rw [getLsbD_mask, getLsbD_shl, getLsbD_ones, BitRange.width]
  grind

theorem shr_mask (r : BitRange) : shr (mask r) r.low = ones r.width := by
  have hle := r.low_val_le_high_val
  refine BitVec.eq_of_getLsbD_eq fun i hi => ?_
  rw [getLsbD_shr, getLsbD_mask, getLsbD_ones, BitRange.width]
  grind

/-- Ones without a 65-bit number: all ones, shifted down (spec/40_datapath_primitives.md R96). -/
theorem ones_eq_shr_allOnes {n : Nat} {amount : Fin 64} (hn : n ≤ 64) (hamount : amount.val = 64 - n) :
    ones n = shr (BitVec.allOnes 64) amount := by
  refine BitVec.eq_of_getLsbD_eq fun i hi => ?_
  rw [getLsbD_ones, getLsbD_shr, BitVec.getLsbD_allOnes, hamount]
  grind

/-- Settles O11, by the numbers of `mask` and `ones`, their bits and their forms within 64 bits. -/
theorem maskAndOnesAreExact : Obligations.MaskAndOnesAreExact := by
  refine ⟨fun r => ⟨toNat_mask r, mask_eq_shl_ones r, fun i => ?maskBits, mask_of_ends, mask_of_ends, mask_of_ends,
    fun hsame => ?oneBit, mask_of_ends⟩, fun n amount hpos hn hamount => ⟨toNat_ones hn, ones_eq_shr_allOnes hn hamount,
    fun i => ?onesBits⟩, by decide⟩
  case maskBits => rw [getLsbD_mask, Bool.decide_and]
  case oneBit =>
    rw [toNat_mask, ← hsame, Nat.pow_succ]
    omega
  case onesBits =>
    rw [getLsbD_ones]
    grind

/-- Settles O12, each row by evaluation. -/
theorem boundaryMasksAreAsTabled : Obligations.BoundaryMasksAreAsTabled := by
  unfold Obligations.BoundaryMasksAreAsTabled
  decide

/-! ## The laws of masks (spec/40_datapath_primitives.md R100) -/

theorem wordAnd_wordNot_self (m : Word) : wordAnd m (wordNot m) = 0#64 := by simp [wordAnd, wordNot]

theorem wordOr_wordNot_self (m : Word) : wordOr m (wordNot m) = BitVec.allOnes 64 := by simp [wordOr, wordNot]

theorem clearField_setField (r : BitRange) (w : Word) : clearField r (setField r w) = clearField r w := by
  refine BitVec.eq_of_getLsbD_eq fun i _ => ?_
  simp only [getLsbD_clearField, getLsbD_setField]
  split <;> rfl

theorem setField_clearField (r : BitRange) (w : Word) : setField r (clearField r w) = setField r w := by
  refine BitVec.eq_of_getLsbD_eq fun i _ => ?_
  simp only [getLsbD_clearField, getLsbD_setField]
  split <;> rfl

theorem shr_wordAnd (v w : Word) (n : Fin 64) : shr (wordAnd v w) n = wordAnd (shr v n) (shr w n) :=
  BitVec.eq_of_getLsbD_eq fun i _ => by simp

theorem wordAnd_mask_eq_zero {r r' : BitRange} (h : r.high.val < r'.low.val ∨ r'.high.val < r.low.val) :
    wordAnd (mask r) (mask r') = 0#64 := by
  refine BitVec.eq_of_getLsbD_eq fun i _ => ?_
  rw [getLsbD_wordAnd, getLsbD_mask, getLsbD_mask, BitVec.getLsbD_zero]
  grind

/-- Settles O13: the laws of one range word by word, and the eight byte ranges by the byte that a bit stands in. -/
theorem maskLawsHold : Obligations.MaskLawsHold := by
  refine ⟨fun w r => ⟨wordAnd_wordNot_self _, wordOr_wordNot_self _, shr_mask r, ?_, clearField_setField r w,
    setField_clearField r w⟩, fun byteRange hrange => ⟨fun i j hij => ?_, ?_⟩⟩
  · rw [shr_wordAnd, shr_mask, BitRange.width]
  · obtain ⟨hilow, hihigh⟩ := hrange i
    obtain ⟨hjlow, hjhigh⟩ := hrange j
    have hne : i.val ≠ j.val := fun h => hij (Fin.ext h)
    exact wordAnd_mask_eq_zero (by omega)
  · refine BitVec.eq_of_getLsbD_eq fun i hi => ?_
    rw [show 0xFFFFFFFFFFFFFFFF#64 = BitVec.allOnes 64 by decide, BitVec.getLsbD_allOnes, decide_eq_true hi]
    simp only [getLsbD_wordOr, getLsbD_mask, hrange, Bool.or_eq_true, Bool.and_eq_true, decide_eq_true_eq]
    simp only [Fin.isValue, Fin.coe_ofNat_eq_mod]
    omega

/-! # More laws of the bit-field operations (spec/41_bitfield.md) -/

/-- The faulting operands that the spec lists for the range operations (spec/41_bitfield.md R112). -/
theorem not_rangeOk_of_listed :
    ∀ p ∈ [((16, 12) : Int × Int), (0, 64), (64, 64), (-1, 5), (64, 3)], ¬ RangeOk p.1 p.2 := by decide

/-- Settles O20: the listed operands are no range, and (5, 5) is one. -/
theorem extractBitsFaultsAsListed : Obligations.ExtractBitsFaultsAsListed := fun s w =>
  ⟨fun p hp => isRangeOperation_extractBits.replies_fault (not_rangeOk_of_listed p hp) w s,
    _, isRangeOperation_extractBits.replies (.single 5) s rfl⟩

/-- A word OR a constant, once the constant is known to be the mask. -/
theorem setField_eq_or {r : BitRange} {m : Word} (h : mask r = m) (w : Word) : setField r w = w ||| m := by
  rw [setField, h, wordOr]

theorem setField_setField (r : BitRange) (w : Word) : setField r (setField r w) = setField r w := by
  simp [setField_eq_or rfl, BitVec.or_assoc]

theorem setField_allOnes (r : BitRange) : setField r (BitVec.allOnes 64) = BitVec.allOnes 64 := by
  rw [setField_eq_or rfl, BitVec.allOnes_or]

theorem setField_full (w : Word) : setField .full w = BitVec.allOnes 64 := by
  rw [setField_eq_or (m := BitVec.allOnes 64) (by decide), BitVec.or_allOnes]

/-- Settles O21: setting is OR with a mask, and the mask is a known constant at the corners. -/
theorem setBitRangeCornerCases : Obligations.SetBitRangeCornerCases := by
  intro s w
  refine ⟨isRangeOperation_setBitRange.replies .full s (setField_full w),
    isRangeOperation_setBitRange.replies (.single 0) s (setField_eq_or (by decide) w),
    isRangeOperation_setBitRange.replies (.single 63) s (setField_eq_or (by decide) w),
    isRangeOperation_setBitRange.replies (.single 63) s (by decide),
    fun p hp => isRangeOperation_setBitRange.replies_fault (not_rangeOk_of_listed p hp) w s,
    fun low high hle hhigh => ?_⟩
  obtain ⟨r, rfl, rfl⟩ := exists_bitRange hle hhigh
  exact ⟨⟨setField r w, isRangeOperation_setBitRange.replies r s rfl,
    isRangeOperation_setBitRange.replies r s (setField_setField r w)⟩,
    isRangeOperation_setBitRange.replies r s (setField_allOnes r)⟩

/-- extractBits of a range does not see what setBitRange does outside it. -/
theorem extractField_setField_of_disjoint {r r' : BitRange} (w : Word)
    (h : r'.high.val < r.low.val ∨ r.high.val < r'.low.val) : extractField r' (setField r w) = extractField r' w :=
  extractField_congr fun i hlow hhigh => by rw [getLsbD_setField, if_neg (by omega)]

theorem extractField_clearField_of_disjoint {r r' : BitRange} (w : Word)
    (h : r'.high.val < r.low.val ∨ r.high.val < r'.low.val) : extractField r' (clearField r w) = extractField r' w :=
  extractField_congr fun i hlow hhigh => by rw [getLsbD_clearField, if_neg (by omega)]

/-- Settles O24, by `clearField_setField` on the range itself and by `extractField_congr` beside it. -/
theorem setAndClearAreComplementary : Obligations.SetAndClearAreComplementary := by
  intro s w low high hle hhigh
  obtain ⟨r, rfl, rfl⟩ := exists_bitRange hle hhigh
  refine ⟨setField r w, clearField r w, isRangeOperation_setBitRange.replies r s rfl,
    isRangeOperation_clearBitRange.replies r s rfl,
    isRangeOperation_clearBitRange.replies r s (clearField_setField r w), fun low' high' hle' hhigh' hdisjoint => ?_⟩
  obtain ⟨r', rfl, rfl⟩ := exists_bitRange hle' hhigh'
  exact ⟨extractField r' w, isRangeOperation_extractBits.replies r' s rfl,
    isRangeOperation_extractBits.replies r' s (extractField_setField_of_disjoint w hdisjoint),
    isRangeOperation_extractBits.replies r' s (extractField_clearField_of_disjoint w hdisjoint)⟩

/-! ## assignBit -/

theorem assignField_getLsbD (n : Fin 64) (w : Word) : assignField n (w.getLsbD n) w = w :=
  BitVec.eq_of_getLsbD_eq fun i _ => by rw [getLsbD_assignField]; split <;> simp_all

/-- The last assignment wins (spec/41_bitfield.md R121). -/
theorem assignField_assignField (n : Fin 64) (v v' : Bool) (w : Word) :
    assignField n v' (assignField n v w) = assignField n v' w :=
  BitVec.eq_of_getLsbD_eq fun i _ => by simp only [getLsbD_assignField]; split <;> rfl

theorem extractField_single_assignField (n : Fin 64) {bitVal : Int} (hval : bitVal = 0 ∨ bitVal = 1) (w : Word) :
    extractField (.single n) (assignField n (decide (bitVal = 1)) w) = BitVec.ofInt 64 bitVal := by
  rw [extractField_single, getLsbD_assignField, if_pos rfl]
  rcases hval with rfl | rfl
  · rfl
  · rfl

/-- A bit as an operand, read back as a bit. -/
theorem decide_ite_eq_one (b : Bool) : decide ((if b then (1 : Int) else 0) = 1) = b := by
  cases b with
  | true => rfl
  | false => rfl

/-- The faulting operands that the spec lists for assignBit (spec/41_bitfield.md R121). -/
theorem bitAssignment_not_ok_of_listed : ∀ p ∈ [((64, 0) : Int × Int), (-1, 1), (3, 2), (3, -1), (3, 255)],
    ¬ (0 ≤ p.1 ∧ p.1 ≤ 63) ∨ ¬ (p.2 = 0 ∨ p.2 = 1) := by decide

/-- Settles O25: every law is one of `assignField` at the one position. -/
theorem assignBitLaws : Obligations.AssignBitLaws := by
  intro s w
  refine ⟨fun n hn => ?laws, assignBit_replies 12 s (.inl rfl) (by decide), assignBit_replies 63 s (.inr rfl) (by decide),
    assignBit_replies 0 s (.inr rfl) (by decide), assignBit_replies 63 s (.inr rfl) (by decide),
    assignBit_replies 63 s (.inl rfl) (by decide), assignBit_replies 0 s (.inl rfl) (by decide),
    fun p hp => assignBit_replies_fault (bitAssignment_not_ok_of_listed p hp) w s, rfl, ?field⟩
  case field => rw [encode, bField_mkCommand]; rfl
  case laws =>
    obtain ⟨p, rfl⟩ : ∃ p : Fin 64, p.val = n := ⟨⟨n, by omega⟩, rfl⟩
    refine ⟨assignBit_replies p s (by split <;> simp) ?same,
      ⟨_, assignBit_replies p s (.inr rfl) rfl, isRangeOperation_setBitRange.replies (.single p) s rfl⟩,
      ⟨_, assignBit_replies p s (.inl rfl) rfl, isRangeOperation_clearBitRange.replies (.single p) s rfl⟩,
      fun v v' hv hv' => ⟨assignField p (decide (v = 1)) w, assignField p (decide (v' = 1)) w,
        assignBit_replies p s hv rfl,
        isRangeOperation_extractBits.replies (.single p) s (extractField_single_assignField p hv w),
        assignBit_replies p s hv' (assignField_assignField p _ _ w), assignBit_replies p s hv' rfl,
        by rw [getLsbD_assignField, if_pos rfl], fun i hi => by rw [getLsbD_assignField, if_neg hi]⟩⟩
    case same =>
      rw [decide_ite_eq_one]
      exact assignField_getLsbD p w

end Sys2Proof.Machine

/-! # More laws of the byte operations (spec/42_byte.md) and of the sign test (spec/43_sign_test.md) -/

namespace Sys2Proof.Machine

/-- The bit positions of byte `k` (spec/00_scope.md R12). -/
abbrev BitRange.byte (k : Fin 8) : BitRange :=
  { low := ⟨8 * k.val, by omega⟩, high := ⟨8 * k.val + 7, by omega⟩, low_le_high := Nat.le_add_right _ _ }

@[simp] theorem getLsbD_byteField (w : Word) (k i : Nat) :
    (byteField w k).getLsbD i = (decide (i < 8) && w.getLsbD (8 * k + i)) := by
  rw [byteField, BitVec.getLsbD_extractLsb']

theorem getLsbD_toR_byte_of_le (b : Byte) {i : Nat} (hi : 8 ≤ i) : (Value.byte b).toR.getLsbD i = false := by
  simp [Value.toR, BitVec.getLsbD_of_ge b i hi]

/-- getByte is extractBits of the byte's positions (spec/42_byte.md R131). -/
theorem extractField_byte (k : Fin 8) (w : Word) : extractField (.byte k) w = (Value.byte (byteField w k)).toR := by
  refine BitVec.eq_of_getLsbD_eq fun i hi => ?_
  rw [getLsbD_extractField, Value.toR, BitVec.getLsbD_setWidth, getLsbD_byteField]
  grind

/-- Settles O28: getByte answers `byteField`, zero-extended in R. -/
theorem getByteCornerCases : Obligations.GetByteCornerCases := by
  intro s w
  refine ⟨fun i hi => ?_, getByte_replies 0 s rfl, getByte_replies 7 s rfl, fun p hp => ?_,
    getByte_replies 7 s (by decide), getByte_replies_fault (by decide) w s, getByte_replies_fault (by decide) w s,
    getByte_replies_fault (by decide) w s⟩
  · obtain ⟨k, rfl⟩ : ∃ k : Fin 8, k.val = i := ⟨⟨i, by omega⟩, rfl⟩
    exact ⟨byteField w k, getByte_replies k s rfl,
      isRangeOperation_extractBits.replies (.byte k) s (extractField_byte k w),
      fun j hj => getLsbD_toR_byte_of_le _ hj⟩
  · simp only [List.mem_cons, List.not_mem_nil, or_false] at hp
    rcases hp with rfl | rfl | rfl | rfl | rfl | rfl | rfl | rfl
    · exact getByte_replies 0 s (by decide)
    · exact getByte_replies 1 s (by decide)
    · exact getByte_replies 2 s (by decide)
    · exact getByte_replies 3 s (by decide)
    · exact getByte_replies 4 s (by decide)
    · exact getByte_replies 5 s (by decide)
    · exact getByte_replies 6 s (by decide)
    · exact getByte_replies 7 s (by decide)

/-! ## putByte -/

/-- putByte writes byte `k` and leaves the other bytes (spec/42_byte.md R135, R136). -/
theorem byteField_replaceByte (k : Fin 8) (b : Byte) (w : Word) (j : Nat) :
    byteField (replaceByte k b w) j = if j = k.val then b else byteField w j := by
  refine BitVec.eq_of_getLsbD_eq fun i hi => ?_
  rw [getLsbD_byteField, getLsbD_replaceByte, decide_eq_true hi, Bool.true_and]
  by_cases hjk : j = k.val
  · rw [if_pos (by omega), if_pos hjk, hjk, Nat.add_sub_cancel_left]
  · rw [if_neg (by omega), if_neg hjk, getLsbD_byteField, decide_eq_true hi, Bool.true_and]

/-- A word is its bytes: bit `i` stands in byte `i / 8`. -/
theorem eq_of_byteField_eq {v w : Word} (h : ∀ k : Fin 8, byteField v k = byteField w k) : v = w := by
  refine BitVec.eq_of_getLsbD_eq fun i hi => ?_
  have hbit : (byteField v (i / 8)).getLsbD (i % 8) = (byteField w (i / 8)).getLsbD (i % 8) := by
    rw [h ⟨i / 8, by omega⟩]
  have hmod : i % 8 < 8 := Nat.mod_lt i (by decide)
  simpa only [getLsbD_byteField, Nat.div_add_mod, hmod, decide_true, Bool.true_and] using hbit

theorem replaceByte_byteField (k : Fin 8) (w : Word) : replaceByte k (byteField w k) w = w := by
  refine eq_of_byteField_eq fun j => ?_
  rw [byteField_replaceByte]
  split
  · next hjk => rw [hjk]
  · rfl

/-- The last write to a byte wins (spec/42_byte.md R136). -/
theorem replaceByte_replaceByte (k : Fin 8) (b b' : Byte) (w : Word) :
    replaceByte k b' (replaceByte k b w) = replaceByte k b' w := by
  refine eq_of_byteField_eq fun j => ?_
  simp only [byteField_replaceByte]
  split <;> rfl

/-- Writes to different bytes commute (spec/42_byte.md R136). -/
theorem replaceByte_comm {k l : Fin 8} (h : l.val ≠ k.val) (b b' : Byte) (w : Word) :
    replaceByte k b (replaceByte l b' w) = replaceByte l b' (replaceByte k b w) := by
  refine eq_of_byteField_eq fun j => ?_
  simp only [byteField_replaceByte]
  grind

/-- Settles O30: putByte answers `replaceByte`, and a word is its bytes. -/
theorem putByteLaws : Obligations.PutByteLaws := by
  intro s w
  refine ⟨putByte_replies 0 s (by decide), putByte_replies 7 s (by decide), putByte_replies 7 s (by decide),
    putByte_replies 3 s (by decide), putByte_replies 3 s (by decide), fun i v v' hi => ?writes, fun i b hi hb => ?same,
    fun v => ⟨putByte_replies_fault (by decide) v w s, putByte_replies_fault (by decide) v w s,
      putByte_replies_fault (by decide) v w s⟩⟩
  case writes =>
    obtain ⟨k, rfl⟩ : ∃ k : Fin 8, k.val = i := ⟨⟨i, by omega⟩, rfl⟩
    refine ⟨replaceByte k v w, replaceByte k v' w, putByte_replies k s rfl, getByte_replies k s ?_,
      putByte_replies k s (replaceByte_replaceByte k v v w), putByte_replies k s (replaceByte_replaceByte k v v' w),
      putByte_replies k s rfl, fun j hj hjk => ?_⟩
    · rw [byteField_replaceByte, if_pos rfl]
    · obtain ⟨l, rfl⟩ : ∃ l : Fin 8, l.val = j := ⟨⟨j, by omega⟩, rfl⟩
      refine ⟨⟨byteField w l, getByte_replies l s ?_, getByte_replies l s rfl⟩,
        replaceByte l v' w, replaceByte l v' (replaceByte k v w), putByte_replies l s rfl, putByte_replies l s rfl,
        putByte_replies k s (replaceByte_comm hjk v v' w)⟩
      rw [byteField_replaceByte, if_neg hjk]
  case same =>
    obtain ⟨k, rfl⟩ : ∃ k : Fin 8, k.val = i := ⟨⟨i, by omega⟩, rfl⟩
    obtain rfl : byteField w k = b := by simpa using (getByte_replies k s rfl).symm.trans hb
    exact putByte_replies k s (replaceByte_byteField k w)

/-! ## buildWord -/

theorem getByte_replies_all {w : Word} {b0 b1 b2 b3 b4 b5 b6 b7 : Byte}
    (h : combineBytes b0 b1 b2 b3 b4 b5 b6 b7 = w) (s : State) :
    Replies (.getByte 0 w) s (.ok (.byte b0)) ∧ Replies (.getByte 1 w) s (.ok (.byte b1)) ∧
    Replies (.getByte 2 w) s (.ok (.byte b2)) ∧ Replies (.getByte 3 w) s (.ok (.byte b3)) ∧
    Replies (.getByte 4 w) s (.ok (.byte b4)) ∧ Replies (.getByte 5 w) s (.ok (.byte b5)) ∧
    Replies (.getByte 6 w) s (.ok (.byte b6)) ∧ Replies (.getByte 7 w) s (.ok (.byte b7)) := by
  obtain ⟨h0, h1, h2, h3, h4, h5, h6, h7⟩ := byteField_of_combineBytes_eq h
  exact ⟨getByte_replies 0 s h0, getByte_replies 1 s h1, getByte_replies 2 s h2, getByte_replies 3 s h3,
    getByte_replies 4 s h4, getByte_replies 5 s h5, getByte_replies 6 s h6, getByte_replies 7 s h7⟩

theorem transact_buildWord (a b : Byte) (w : Word) (s : State) :
    transact (mkCommand 0x07#8 a b w) s = .next (s.answer (.word w)) := by
  rw [transact_of_decode_ok (decode_mkCommand_buildWord a b w)]
  exact buildWord_replies (combineBytes_byteField w) s

/-- Settles O32: `combineBytes` of the bytes of a word is the word, and its own bytes are the operands. -/
theorem buildWordInvertsByteDecomposition : Obligations.BuildWordInvertsByteDecomposition := by
  intro s
  refine ⟨fun a b w => transact_buildWord a b w s, buildWord_replies (by decide) s, buildWord_replies (by decide) s,
    buildWord_replies (by decide) s, buildWord_replies (by decide) s, buildWord_replies (by decide) s,
    fun w => ?decompose, fun b0 b1 b2 b3 b4 b5 b6 b7 => ?compose, buildWord_replies (by decide) s⟩
  case decompose =>
    obtain ⟨h0, h1, h2, h3, h4, h5, h6, h7⟩ := getByte_replies_all (combineBytes_byteField w) s
    exact ⟨_, _, _, _, _, _, _, _, h0, h1, h2, h3, h4, h5, h6, h7, buildWord_replies (combineBytes_byteField w) s⟩
  case compose =>
    obtain ⟨w, hw⟩ : ∃ w, combineBytes b0 b1 b2 b3 b4 b5 b6 b7 = w := ⟨_, rfl⟩
    refine ⟨w, buildWord_replies hw s, ?_, getByte_replies_all hw s⟩
    obtain ⟨h0, h1, h2, h3, h4, h5, h6, h7⟩ := byteField_of_combineBytes_eq hw
    rw [toNat_eq_sum_byteField, h0, h1, h2, h3, h4, h5, h6, h7]

/-! ## isNegative -/

/-- The top bit is set exactly where the two's-complement reading is below zero (spec/43_sign_test.md R151). -/
theorem getLsbD_63_iff_signed_neg (w : Word) : w.getLsbD 63 = true ↔
    (if w.getLsbD 63 then (w.toNat : Int) - 2 ^ 64 else (w.toNat : Int)) < 0 := by
  have hw := w.isLt
  split
  · next htop => exact ⟨fun _ => by omega, fun _ => htop⟩
  · next htop => exact ⟨fun h => absurd h htop, fun h => by omega⟩

/-- R of isNegative is R of extractBits(63, 63, word) (spec/43_sign_test.md R151). -/
theorem toR_bool_eq_extractField (w : Word) : (Value.bool (w.getLsbD 63)).toR = extractField (.single 63) w :=
  (extractField_single 63 w).symm

theorem toR_bool_eq_one_iff (b : Bool) : (Value.bool b).toR = 1#64 ↔ b = true := by
  cases b with
  | true => simp [Value.toR]
  | false => simp [Value.toR]

/-- Settles O34, by `getLsbD_63_iff_signed_neg` and `toR_bool_eq_extractField`. -/
theorem isNegativeAgreesWithTheSignedReading : Obligations.IsNegativeAgreesWithTheSignedReading := by
  intro s w
  refine ⟨⟨w.getLsbD 63, extractField (.single 63) w, isNegative_replies rfl s,
    isRangeOperation_extractBits.replies (.single 63) s rfl, toR_bool_eq_extractField w, ?one,
    getLsbD_63_iff_signed_neg w, isNegative_replies ?masked s⟩, isNegative_replies (by decide) s,
    isNegative_replies (by decide) s, isNegative_replies (by decide) s, isNegative_replies (by decide) s⟩
  case one => rw [← toR_bool_eq_extractField, toR_bool_eq_one_iff]
  case masked =>
    rw [BitVec.getLsbD_and, show (0x8000000000000000#64).getLsbD 63 = true by decide, Bool.and_true]

end Sys2Proof.Machine

/-! # More laws of the bit-string and of the buffer clear (spec/44_bitstring_buffer.md) -/

namespace Sys2Proof.Machine

/-! ## The index map (spec/44_bitstring_buffer.md R161) -/

/-- The digit of bit `k` is where the index map says: place `(63 - k) % 8` of group `(63 - k) / 8`. -/
theorem bitStringElem_digitIndex (cfg : Config) (word : Word) {k : Nat} (hk : k < 64) :
    bitStringElem cfg word (digitIndex k) = if word.getLsbD k then cfg.chOne else cfg.chZero := by
  have hindex : digitIndex k = 9 * ((63 - k) / 8) + (63 - k) % 8 := by rw [digitIndex]; omega
  rw [hindex, bitStringElem_digit _ _ (by omega), Nat.div_add_mod, show 63 - (63 - k) = k by omega]

theorem digitIndex_le {k : Nat} (hk : k < 64) : digitIndex k ≤ 70 := by
  rw [digitIndex]; omega

theorem le_of_mem_spaceIndices {i : Nat} (h : i ∈ spaceIndices) : i ≤ 70 :=
  (by decide : ∀ i ∈ spaceIndices, i ≤ 70) i h

/-- Every index of 0..71 is a digit, a space or the terminator. -/
theorem index_cases {a : Nat} (ha : a ≤ 71) : a = 71 ∨ a ∈ spaceIndices ∨ ∃ k, k < 64 ∧ digitIndex k = a := by
  rcases Nat.lt_or_eq_of_le ha with hlt | rfl
  · have hle : a ≤ 70 := Nat.le_of_lt_succ hlt
    by_cases hsp : a ∈ spaceIndices
    · exact .inr (.inl hsp)
    · rw [mem_spaceIndices_iff hle] at hsp
      exact .inr (.inr ⟨digitBit a, by rw [digitBit]; omega, by rw [digitIndex, digitBit]; omega⟩)
  · exact .inl rfl

theorem showsWord_bitStringElem {cfg : Config} {word : Word} {content : Nat → Option Byte}
    (h : ∀ a, a < 72 → content a = some (bitStringElem cfg word a)) : ShowsWord cfg word content := by
  refine ⟨fun k hk => ?_, fun i hi => ?_, ?_⟩
  · rw [h _ (Nat.lt_of_le_of_lt (digitIndex_le hk) (by decide)), bitStringElem_digitIndex cfg word hk]
  · have hle : i ≤ 70 := le_of_mem_spaceIndices hi
    rw [h i (by omega), bitStringElem_space cfg word (by omega) ((mem_spaceIndices_iff hle).mp hi)]
  · rw [h 71 (by decide), bitStringElem_term]

/-- renderBits leaves the bit-string of its word at 0..71 and every element above as it was. -/
theorem exists_renderBits_showsWord (word : Word) (s : State) : ∃ t, exec (.renderBits word) s = .next t ∧
    ShowsWord s.cfg word t.buf.read ∧ ∀ a, 72 ≤ a → t.buf.read a = s.buf.read a := by
  obtain ⟨t, hexec, -, -, -, -, hstring, hkept⟩ := (renderBits_repliesWriting word s).exists_writesBelow
  exact ⟨t, hexec, showsWord_bitStringElem hstring, hkept⟩

/-- Settles O37, by `exists_renderBits_showsWord` and `index_cases`. -/
theorem renderBitsFollowsTheIndexMap : Obligations.RenderBitsFollowsTheIndexMap := by
  intro s word
  obtain ⟨t, hexec, hshows, hkept⟩ := exists_renderBits_showsWord word s
  exact ⟨t, hexec, hshows, fun a ha => index_cases ha, hkept, by decide, by decide, by decide, by decide⟩

/-- The bits of the four words of the spec (spec/44_bitstring_buffer.md R164). -/
theorem getLsbD_corner_words : ∀ k, k < 64 →
    (0#64).getLsbD k = false ∧ (0xFFFFFFFFFFFFFFFF#64).getLsbD k = true ∧
    (0x8000000000000000#64).getLsbD k = decide (k = 63) ∧ (0x0000000000000001#64).getLsbD k = decide (k = 0) := by
  decide

/-- Settles O39: the four words by their bits, and the string as `bitStringElem`, which knows no state. -/
theorem renderBitsCornerCases : Obligations.RenderBitsCornerCases := by
  refine ⟨fun s k hk => ?corners, fun s u word hcfg => ?function⟩
  case corners =>
    obtain ⟨hzero, hones, htop, hone⟩ := getLsbD_corner_words k hk
    obtain ⟨t₀, hexec₀, ⟨hdigit₀, -⟩, -⟩ := exists_renderBits_showsWord 0#64 s
    obtain ⟨t₁, hexec₁, ⟨hdigit₁, -⟩, -⟩ := exists_renderBits_showsWord 0xFFFFFFFFFFFFFFFF#64 s
    obtain ⟨t₂, hexec₂, ⟨hdigit₂, -⟩, -⟩ := exists_renderBits_showsWord 0x8000000000000000#64 s
    obtain ⟨t₃, hexec₃, ⟨hdigit₃, -⟩, -⟩ := exists_renderBits_showsWord 0x0000000000000001#64 s
    refine ⟨t₀, t₁, t₂, t₃, hexec₀, ?_, hexec₁, ?_, hexec₂, ?_, hexec₃, ?_⟩
    · rw [hdigit₀ k hk, hzero, if_neg Bool.false_ne_true]
    · rw [hdigit₁ k hk, hones, if_pos rfl]
    · simp only [hdigit₂ k hk, htop, decide_eq_true_eq]
    · simp only [hdigit₃ k hk, hone, decide_eq_true_eq]
  case function =>
    obtain ⟨t, hexec, -, -, -, -, hstring, hkept⟩ := (renderBits_repliesWriting word s).exists_writesBelow
    obtain ⟨v, hexec', -, -, -, -, hstring', -⟩ := (renderBits_repliesWriting word u).exists_writesBelow
    refine ⟨t, v, hexec, hexec', fun a ha => ⟨?_, _, hstring a (by omega)⟩, hkept⟩
    rw [hstring a (by omega), hstring' a (by omega), hcfg]

/-! ## The string determines the word (spec/44_bitstring_buffer.md R165) -/

theorem ShowsWord.getLsbD_iff {cfg : Config} {word : Word} {content : Nat → Option Byte}
    (h : ShowsWord cfg word content) (hcodes : cfg.chZero ≠ cfg.chOne) {k : Nat} (hk : k < 64) :
    word.getLsbD k = true ↔ content (digitIndex k) = some cfg.chOne := by
  obtain ⟨hdigit, -⟩ := h
  rw [hdigit k hk, Option.some_inj]
  split
  · next hbit => simp [hbit]
  · next hbit => simp [hbit, hcodes]

/-- Two words with the same digits have the same bits. -/
theorem ShowsWord.eq_of_digits_eq {cfg : Config} {v w : Word} {content content' : Nat → Option Byte}
    (hv : ShowsWord cfg v content) (hw : ShowsWord cfg w content') (hcodes : cfg.chZero ≠ cfg.chOne)
    (h : ∀ k, k < 64 → content (digitIndex k) = content' (digitIndex k)) : v = w :=
  BitVec.eq_of_getLsbD_eq fun k hk => by
    rw [Bool.eq_iff_iff, hv.getLsbD_iff hcodes hk, hw.getLsbD_iff hcodes hk, h k hk]

/-- The spaces and the terminator are the same in every string. -/
theorem ShowsWord.eq_of_not_digit {cfg : Config} {v w : Word} {content content' : Nat → Option Byte}
    (hv : ShowsWord cfg v content) (hw : ShowsWord cfg w content') {i : Nat} (hi : i ∈ spaceIndices ∨ i = 71) :
    content i = content' i := by
  obtain ⟨-, hspace, hterm⟩ := hv
  obtain ⟨-, hspace', hterm'⟩ := hw
  rcases hi with hi | rfl
  · rw [hspace i hi, hspace' i hi]
  · rw [hterm, hterm']

/-- Settles O40: with distinct digit codes each digit tells its bit. -/
theorem bitStringDeterminesTheWord : Obligations.BitStringDeterminesTheWord := by
  intro s v w hlegal
  obtain ⟨-, -, hcodes, -⟩ := hlegal
  obtain ⟨t, hexec, hv, -⟩ := exists_renderBits_showsWord v s
  obtain ⟨u, hexec', hw, -⟩ := exists_renderBits_showsWord w s
  refine ⟨t, u, hexec, hexec', fun k hk => hv.getLsbD_iff hcodes hk, fun hne => ?_,
    fun i hi => hv.eq_of_not_digit hw hi⟩
  by_contra hsame
  push Not at hsame
  exact hne (hv.eq_of_digits_eq hw hcodes hsame)

/-! ## Running a buffer operation twice (spec/20_memory.md R54) -/

/-- In every state with parameters `cfg` the instruction writes `f a` to the elements `a` below `n`, and no other. -/
def WritesBelow (cfg : Config) (i : Instr) (n : Nat) (f : Nat → Byte) : Prop :=
  ∀ s : State, s.cfg = cfg → ∃ r, RepliesWriting i s r fun a => if a < n then some (f a) else s.buf.read a

theorem writesBelow_renderBits (cfg : Config) (word : Word) :
    WritesBelow cfg (.renderBits word) 72 (bitStringElem cfg word) := by
  rintro s rfl
  exact ⟨_, renderBits_repliesWriting word s⟩

theorem writesBelow_clearBuffer_natCast {cfg : Config} {n : Nat} (hn : n ≤ cfg.buflen) :
    WritesBelow cfg (.clearBuffer n) n fun _ => 0x00#8 := by
  rintro s rfl
  exact ⟨_, clearBuffer_repliesWriting_natCast hn⟩

/-- Outside its domain clearBuffer faults and writes no element. -/
theorem exists_writesBelow_clearBuffer (cfg : Config) (size : Int) :
    ∃ n, WritesBelow cfg (.clearBuffer size) n fun _ => 0x00#8 := by
  cases hn : bufSize? cfg size with
  | none =>
    refine ⟨0, ?_⟩
    rintro s rfl
    exact ⟨_, by simpa using (clearBuffer_replies_fault hn).repliesWriting⟩
  | some n =>
    refine ⟨n, ?_⟩
    rintro s rfl
    exact ⟨_, clearBuffer_repliesWriting hn⟩

/-- The second run writes what the first one wrote. -/
theorem WritesBelow.exists_twice {i : Instr} {n : Nat} {f : Nat → Byte} {s : State} (h : WritesBelow s.cfg i n f) :
    ∃ t u, exec i s = .next t ∧ exec i t = .next u ∧ (∀ a, a < n → t.buf.read a = some (f a)) ∧
      ∀ a, u.buf.read a = t.buf.read a := by
  obtain ⟨r, hr⟩ := h s rfl
  obtain ⟨t, hexec, -, hcfg, -, -, hwritten, -⟩ := hr.exists_writesBelow
  obtain ⟨r', u, hexec', -, -, -, -, hread⟩ := h t hcfg
  refine ⟨t, u, hexec, hexec', hwritten, fun a => ?_⟩
  simp only [hread]
  split
  · next ha => exact (hwritten a ha).symm
  · rfl

/-- Settles O43: a repeated write writes the same values, and a host read does not write. -/
theorem accessesHaveNoSideEffects : Obligations.AccessesHaveNoSideEffects := by
  refine ⟨fun s i v hi => ?host, fun s word => ?render, fun s size => ?clear⟩
  case host =>
    refine ⟨s.withBuf (s.buf.write i v), (s.withBuf (s.buf.write i v)).withBuf ((s.buf.write i v).write i v), ?_⟩
    obtain ⟨x, v', hread, htrace, -, -, hbuf, hvalue, -⟩ := exists_hostRead (s := s.withBuf (s.buf.write i v)) hi
    obtain rfl : v' = v := hvalue v (Memory.read_write_same _ i v)
    refine ⟨x, hostWrite_existing hi, hostWrite_existing hi, fun a => ?_, hread, htrace, fun a => by rw [hbuf]⟩
    simp only [State.withBuf_buf, Memory.read_write]
    split <;> rfl
  case render =>
    obtain ⟨t, u, hexec, hexec', -, hsame⟩ := (writesBelow_renderBits s.cfg word).exists_twice
    exact ⟨t, u, hexec, hexec', hsame⟩
  case clear =>
    obtain ⟨n, hn⟩ := exists_writesBelow_clearBuffer s.cfg size
    obtain ⟨t, u, hexec, hexec', -, hsame⟩ := hn.exists_twice
    exact ⟨t, u, hexec, hexec', hsame⟩

/-- A size outside 0..BUFLEN faults. -/
theorem clearBuffer_replies_fault_of_not_le {size : Int} {s : State} (h : ¬ (0 ≤ size ∧ size ≤ (s.cfg.buflen : Int))) :
    Replies (.clearBuffer size) s (.fault .invalidArgument) :=
  clearBuffer_replies_fault (bufSize?_eq_none h)

/-- Settles O42: the sizes 0 and BUFLEN are in the domain, the listed others are outside it. -/
theorem clearBufferCornerCases : Obligations.ClearBufferCornerCases := by
  intro s _
  refine ⟨?_, clearBuffer_repliesWriting_natCast (Nat.le_refl _), clearBuffer_replies_fault_of_not_le (by omega),
    clearBuffer_replies_fault_of_not_le (by omega), clearBuffer_replies_fault_of_not_le (by omega),
    fun h72 => clearBuffer_replies_fault_of_not_le (by omega),
    fun n hn => (writesBelow_clearBuffer_natCast hn).exists_twice⟩
  simpa using clearBuffer_repliesWriting_natCast (s := s) (Nat.zero_le _)

end Sys2Proof.Machine
